-- ==== Sys2Proof/Word.lean ====
section
/-! DEFINITION. The word types of SRLCD: bytes, request words and texts (00_scope.md R9; 30_encoding.md R70, R71). -/

namespace Sys2Proof

/-- A byte: an unsigned 8-bit value, bit 0 the least significant (R9). -/
abbrev Byte := BitVec 8

/-- The request word on the request port, `req_word[15:0]` (R23, R71). -/
abbrev ReqWord := BitVec 16

/-- A text operand: a finite, length-counted byte sequence of any length, first byte first (R70, R76). -/
abbrev Text := List Byte

end Sys2Proof
end

