-- ==== Sys2Proof/Syntax.lean ====
section
/-! DEFINITION. The instructions: one constructor per row of spec/opcode_table.json. The 18 requests (format REQ,
30_encoding.md R72) are what the host asks of SRLCD. The seven command bytes (format LCD_CMD) and the data byte (format
LCD_DATA) are what the controller takes from the bus at a falling edge of E (30_encoding.md R78, R80; 60_exceptions.md
R218). Every operand has exactly the width of its field (R73), so no operand of an `Instr` can lie outside its field. -/

namespace Sys2Proof

/-- One constructor per row of spec/opcode_table.json. A bit or flag operand is a `Bool` (true is 1). -/
inductive Instr where
  /-- SHIFTBIT b (R101). -/
  | shiftbit (b : Bool)
  /-- SHIFTBYTE x (R102). -/
  | shiftbyte (x : Byte)
  /-- LATCH (R103). -/
  | latch
  /-- PUTBIT b (R104). -/
  | putbit (b : Bool)
  /-- PUTBYTE x (R105). -/
  | putbyte (x : Byte)
  /-- COMMAND x (R123). -/
  | command (x : Byte)
  /-- WRITECHAR c (R124). -/
  | writechar (c : Byte)
  /-- CLEAR (R141). -/
  | clear
  /-- HOME (R142). -/
  | home
  /-- FUNCSET e, n, s: 8-bit bus, two lines, small font (R143). -/
  | funcset (e n s : Bool)
  /-- DISPSET d, c, k: display on, cursor on, cursor blink (R144). -/
  | dispset (d c k : Bool)
  /-- ENTRYSET i, h: auto-increment, shift display (R145). -/
  | entryset (i h : Bool)
  /-- SETDDRAM a, a 7-bit address (R146). -/
  | setddram (a : BitVec 7)
  /-- SETCGRAM a, a 6-bit address (R147). -/
  | setcgram (a : BitVec 6)
  /-- SETCURSOR l, idx: l selects the second line, idx is any byte (R148). -/
  | setcursor (l : Bool) (idx : Byte)
  /-- DEFAULTSETUP (R149). -/
  | defaultsetup
  /-- WRITESTR text1 (R171). -/
  | writestr (t : Text)
  /-- WRITEMSG text1, text2 (R172). -/
  | writemsg (t1 t2 : Text)
  /-- LCD_CLEAR: the bus byte `00000001` with RS = 0 (R78). -/
  | lcdClear
  /-- LCD_HOME: `00000010` with RS = 0 (R78). -/
  | lcdHome
  /-- LCD_ENTRY_MODE_SET: `000001ih` with RS = 0 (R78). -/
  | lcdEntryModeSet (i h : Bool)
  /-- LCD_DISPLAY_SET: `00001dck` with RS = 0 (R78). -/
  | lcdDisplaySet (d c k : Bool)
  /-- LCD_FUNCTION_SET: `0011ns00` with RS = 0 (R78). -/
  | lcdFunctionSet (n s : Bool)
  /-- LCD_CGRAM_ADDRESS_SET: `01aaaaaa` with RS = 0 (R78). -/
  | lcdCgramAddressSet (a : BitVec 6)
  /-- LCD_DDRAM_ADDRESS_SET: `1aaaaaaa` with RS = 0 (R78). -/
  | lcdDdramAddressSet (a : BitVec 7)
  /-- LCD_DATA: any byte with RS = 1 (R80). -/
  | lcdData (x : Byte)
  deriving DecidableEq, Repr

end Sys2Proof
end

