-- ==== Sys2Proof/WellFormed.lean ====
section
/-! DEFINITION. The raw inputs a decoder reads (a request, or a pair sampled from the bus) and which of them are well
formed. The checks are written from the field list of 30_encoding.md R74 in plain numbers, apart from the masks the decoder
uses (R77), so that each can be held against the other. An `Instr` needs no check of its own: its operands have exactly
their fields' widths. -/

namespace Sys2Proof

/-- A request `(word, text1, text2)` as the host presents it (R70). -/
structure Request where
  word : ReqWord
  text1 : Text
  text2 : Text
  deriving DecidableEq, Repr

/-- What is decoded: a request on the request port, or an (RS, byte) pair on the controller's bus. -/
inductive Code where
  | req (r : Request)
  | bus (rs : Bool) (x : Byte)
  deriving DecidableEq, Repr

/-- The operation code as a number, bits 15:11 (R71). -/
def Request.opNumber (r : Request) : Nat := r.word.toNat / 2048

/-- The flag bits as a number, bits 10:8 (R71). -/
def Request.fNumber (r : Request) : Nat := r.word.toNat / 256 % 8

/-- The argument as a number, bits 7:0 (R71). -/
def Request.aNumber (r : Request) : Nat := r.word.toNat % 256

/-- The operation code is one of the map of R72: 0x01 to 0x05 or 0x08 to 0x14 (R75). -/
def Request.opListed (r : Request) : Bool :=
  decide ((1 ≤ r.opNumber ∧ r.opNumber ≤ 5) ∨ (8 ≤ r.opNumber ∧ r.opNumber ≤ 0x14))

/-- Every reserved-zero field of R74 is 0, field by field as R74 lists them. -/
def Request.reservedZero (r : Request) : Bool :=
  (decide (r.opNumber ∈ [0x0C, 0x0D, 0x0E, 0x11]) || r.fNumber == 0) &&
  (!decide (r.opNumber ∈ [0x01, 0x04]) || decide (r.aNumber < 2)) &&
  (!decide (r.opNumber ∈ [0x03, 0x0A, 0x0B, 0x0C, 0x0D, 0x0E, 0x12, 0x13, 0x14]) || r.aNumber == 0) &&
  (!(r.opNumber == 0x0E) || decide (r.fNumber < 4)) &&
  (!(r.opNumber == 0x0F) || decide (r.aNumber < 128)) &&
  (!(r.opNumber == 0x10) || decide (r.aNumber < 64)) &&
  (!(r.opNumber == 0x11) || decide (r.fNumber < 2))

/-- Texts stand only where the operation uses them: both for WRITEMSG, text1 for WRITESTR, none elsewhere (R76). -/
def Request.textsFit (r : Request) : Bool :=
  if r.opNumber = 0x14 then true
  else if r.opNumber = 0x13 then r.text2.isEmpty
  else r.text1.isEmpty && r.text2.isEmpty

/-- A request the decoder gives a meaning (R74 to R76). -/
def Request.wellFormed (r : Request) : Bool := r.opListed && r.reservedZero && r.textsFit

/-- A command byte that matches a pattern of R78: every byte but those R82 lists. -/
def commandByteListed (x : Byte) : Bool :=
  !(x == 0x00 || x == 0x03 || (0x10 ≤ x.toNat && x.toNat ≤ 0x2F) ||
    (0x30 ≤ x.toNat && x.toNat ≤ 0x3F && x.toNat % 4 != 0))

/-- A code with a meaning: a well-formed request, a data byte, or a listed command byte. -/
def Code.wellFormed : Code → Bool
  | .req r => r.wellFormed
  | .bus rs x => rs || commandByteListed x

end Sys2Proof
end

