-- ==== Sys2Proof/Decode.lean ====
section
/-! DEFINITION. The decoder (30_encoding.md R71 to R77 for requests, R78 for bus bytes), total and refusing by name, and
after it the encoder, written from the same tables. -/

namespace Sys2Proof

/-- Why the request decoder gives no instruction: the three refusals of R77, in its order. -/
inductive DecodeError where
  | reservedOpcode
  | reservedField
  | textOperand
  deriving DecidableEq, Repr

/-- `OP = word[15:11]` (R71). -/
def opOf (w : ReqWord) : BitVec 5 := w.extractLsb' 11 5

/-- `F = word[10:8]` (R71). -/
def fOf (w : ReqWord) : BitVec 3 := w.extractLsb' 8 3

/-- `A = word[7:0]` (R71). -/
def aOf (w : ReqWord) : Byte := w.extractLsb' 0 8

/-- The word a host sends as two bytes, `req_word[15:8]` first (20_memory.md R57). -/
def wordOfBytes (hi lo : Byte) : ReqWord := hi ++ lo

/-- The operation an operation code selects, with its operands assembled by R73; none where the code is reserved
(R75). -/
def selectOp (op : BitVec 5) (f : BitVec 3) (a : Byte) (t1 t2 : Text) : Option Instr :=
  match op.toNat with
  | 0x01 => some (.shiftbit (a.getLsbD 0))
  | 0x02 => some (.shiftbyte a)
  | 0x03 => some .latch
  | 0x04 => some (.putbit (a.getLsbD 0))
  | 0x05 => some (.putbyte a)
  | 0x08 => some (.command a)
  | 0x09 => some (.writechar a)
  | 0x0A => some .clear
  | 0x0B => some .home
  | 0x0C => some (.funcset (f.getLsbD 2) (f.getLsbD 1) (f.getLsbD 0))
  | 0x0D => some (.dispset (f.getLsbD 2) (f.getLsbD 1) (f.getLsbD 0))
  | 0x0E => some (.entryset (f.getLsbD 1) (f.getLsbD 0))
  | 0x0F => some (.setddram (a.extractLsb' 0 7))
  | 0x10 => some (.setcgram (a.extractLsb' 0 6))
  | 0x11 => some (.setcursor (f.getLsbD 0) a)
  | 0x12 => some .defaultsetup
  | 0x13 => some (.writestr t1)
  | 0x14 => some (.writemsg t1 t2)
  | _ => none

/-- The reserved-zero bits of an operation code as a 16-bit mask (R77). -/
def rzMask (op : BitVec 5) : ReqWord :=
  match op.toNat with
  | 0x01 | 0x04 => 0x07FE
  | 0x02 | 0x05 | 0x08 | 0x09 => 0x0700
  | 0x03 | 0x0A | 0x0B | 0x12 | 0x13 | 0x14 => 0x07FF
  | 0x0C | 0x0D => 0x00FF
  | 0x0E => 0x04FF
  | 0x0F => 0x0780
  | 0x10 => 0x07C0
  | 0x11 => 0x0600
  | _ => 0

/-- The texts an operation code may carry (R76): WRITEMSG any, WRITESTR an empty `text2`, every other both empty. -/
def textsOk (op : BitVec 5) (t1 t2 : Text) : Bool :=
  match op.toNat with
  | 0x14 => true
  | 0x13 => t2.isEmpty
  | _ => t1.isEmpty && t2.isEmpty

/-- The request decoder, total, checking OP, then the reserved-zero bits, then the texts (R77). -/
def decodeReq (r : Request) : Except DecodeError Instr :=
  match selectOp (opOf r.word) (fOf r.word) (aOf r.word) r.text1 r.text2 with
  | none => .error .reservedOpcode
  | some i =>
    if r.word &&& rzMask (opOf r.word) ≠ 0 then .error .reservedField
    else if textsOk (opOf r.word) r.text1 r.text2 then .ok i
    else .error .textOperand

/-- What the controller takes from an (RS, DB) pair: any byte is data with RS = 1 (R80); with RS = 0 the byte is matched
against the masks of R78's patterns, and none is the answer for a byte that R82 leaves unlisted. -/
def decodeBus (rs : Bool) (x : Byte) : Option Instr :=
  if rs then some (.lcdData x)
  else if x &&& 0xFF = 0x01 then some .lcdClear
  else if x &&& 0xFF = 0x02 then some .lcdHome
  else if x &&& 0xFC = 0x04 then some (.lcdEntryModeSet (x.getLsbD 1) (x.getLsbD 0))
  else if x &&& 0xF8 = 0x08 then some (.lcdDisplaySet (x.getLsbD 2) (x.getLsbD 1) (x.getLsbD 0))
  else if x &&& 0xF3 = 0x30 then some (.lcdFunctionSet (x.getLsbD 3) (x.getLsbD 2))
  else if x &&& 0xC0 = 0x40 then some (.lcdCgramAddressSet (x.extractLsb' 0 6))
  else if x &&& 0x80 = 0x80 then some (.lcdDdramAddressSet (x.extractLsb' 0 7))
  else none

/-- The decoder of both formats, total; a request it gives no instruction is refused by the name `decodeReq` gives. -/
def decode : Code → Option Instr
  | .req r => (decodeReq r).toOption
  | .bus rs x => decodeBus rs x

/-- Three flag bits, the first in bit 2 (R73). -/
def flags (f2 f1 f0 : Bool) : BitVec 3 := BitVec.ofBool f2 ++ BitVec.ofBool f1 ++ BitVec.ofBool f0

/-- The word `(OP << 11) | (F << 8) | A` (R71, R83). -/
def requestWord (op : BitVec 5) (f : BitVec 3) (a : Byte) : ReqWord := op ++ f ++ a

/-- A request that carries no text. -/
def plainRequest (op : BitVec 5) (f : BitVec 3) (a : Byte) : Code := .req ⟨requestWord op f a, [], []⟩

/-- A bit operand as the argument `0000000b` (R72). -/
def bitArg (b : Bool) : Byte := (BitVec.ofBool b).setWidth 8

/-- The words of every instruction: requests by the map of R72, bus bytes by the patterns of R78. -/
def encode : Instr → Code
  | .shiftbit b => plainRequest 0x01 0 (bitArg b)
  | .shiftbyte x => plainRequest 0x02 0 x
  | .latch => plainRequest 0x03 0 0
  | .putbit b => plainRequest 0x04 0 (bitArg b)
  | .putbyte x => plainRequest 0x05 0 x
  | .command x => plainRequest 0x08 0 x
  | .writechar c => plainRequest 0x09 0 c
  | .clear => plainRequest 0x0A 0 0
  | .home => plainRequest 0x0B 0 0
  | .funcset e n s => plainRequest 0x0C (flags e n s) 0
  | .dispset d c k => plainRequest 0x0D (flags d c k) 0
  | .entryset i h => plainRequest 0x0E (flags false i h) 0
  | .setddram a => plainRequest 0x0F 0 (a.setWidth 8)
  | .setcgram a => plainRequest 0x10 0 (a.setWidth 8)
  | .setcursor l idx => plainRequest 0x11 (flags false false l) idx
  | .defaultsetup => plainRequest 0x12 0 0
  | .writestr t => .req ⟨requestWord 0x13 0 0, t, []⟩
  | .writemsg t1 t2 => .req ⟨requestWord 0x14 0 0, t1, t2⟩
  | .lcdClear => .bus false 0x01
  | .lcdHome => .bus false 0x02
  | .lcdEntryModeSet i h => .bus false ((0x01 : BitVec 6) ++ BitVec.ofBool i ++ BitVec.ofBool h)
  | .lcdDisplaySet d c k => .bus false ((0x01 : BitVec 5) ++ flags d c k)
  | .lcdFunctionSet n s => .bus false ((0x3 : BitVec 4) ++ BitVec.ofBool n ++ BitVec.ofBool s ++ (0 : BitVec 2))
  | .lcdCgramAddressSet a => .bus false ((0x1 : BitVec 2) ++ a)
  | .lcdDdramAddressSet a => .bus false ((0x1 : BitVec 1) ++ a)
  | .lcdData x => .bus true x

/-- The RS line that goes with a byte of an eight-bit table row: the table's bits do not hold RS. 0 for a byte that matches
a command pattern of R78, else 1, because only the row LCD_DATA then holds it (log entry 10). -/
def tableRs (x : Byte) : Bool := (decodeBus false x).isNone

/-- What the decoder reads from a table row's bits: a sixteen-bit row is a request word with empty texts, an eight-bit row
a byte on the bus. -/
def decodeTableWord (nbits w : Nat) : Option Instr :=
  if nbits = 16 then decode (.req ⟨BitVec.ofNat 16 w, [], []⟩)
  else if nbits = 8 then decode (.bus (tableRs (BitVec.ofNat 8 w)) (BitVec.ofNat 8 w))
  else none

end Sys2Proof
end

