-- ==== Sys2Proof/Config.lean ====
section
/-! DEFINITION. The six output lines and the parameters a model of SRLCD takes (00_scope.md R7, R8). The parameters are
plain data that State carries, so that every statement holds for every configuration. SRLCD leaves no value free, so no
opaque constant stands here. -/

namespace Sys2Proof

/-- The six output lines (10_state.md R22). -/
inductive Pin where
  | ser | srclk | rclk | e | rw | rs
  deriving DecidableEq, Repr

/-- The value of `W_DATA`, the width of a data or command byte. One value: every rule that reads a byte writes eight bits
(R9; 30_encoding.md R71; 40_shift.md R102; log entry 12). -/
inductive DataWidth where
  | eight
  deriving DecidableEq, Repr

/-- `W_DATA` in bits. -/
def DataWidth.bits : DataWidth → Nat
  | .eight => 8

/-- The value of `N_STAGES`, the shift-register stages the block fills. One value: 10_state.md R32 and R37 give eight (log
entry 12). -/
inductive StageCount where
  | eight
  deriving DecidableEq, Repr

/-- `N_STAGES` as a number. -/
def StageCount.stages : StageCount → Nat
  | .eight => 8

/-- The value of `DDRAM_AW`, the DDRAM address width. One value: 42_lcd_commands.md R146 encodes seven bits (log entry
12). -/
inductive DdramWidth where
  | seven
  deriving DecidableEq, Repr

/-- `DDRAM_AW` in bits. -/
def DdramWidth.bits : DdramWidth → Nat
  | .seven => 7

/-- The value of `CGRAM_AW`, the CGRAM address width. One value: 42_lcd_commands.md R147 encodes six bits (log entry 12). -/
inductive CgramWidth where
  | six
  deriving DecidableEq, Repr

/-- `CGRAM_AW` in bits. -/
def CgramWidth.bits : CgramWidth → Nat
  | .six => 6

/-- The parameters of 00_scope.md R7. Durations are in nanoseconds (R12); pin identities are opaque numbers. -/
structure Config where
  /-- `W_DATA`: width of a data or command byte. -/
  wData : DataWidth
  /-- `N_STAGES`: shift-register stages the block fills. -/
  nStages : StageCount
  /-- `T_S`: settle after a pin change; hold of each shift-clock and latch level. -/
  tS : Nat
  /-- `T_EN`: enable high time. -/
  tEn : Nat
  /-- `T_CHAR`: settle after a character write. -/
  tChar : Nat
  /-- `T_ADDR`: settle after a DDRAM or CGRAM address set. -/
  tAddr : Nat
  /-- `T_CLR`: settle after clear and cursor home. -/
  tClr : Nat
  /-- `T_SETTER`: settle after function set, display set and entry-mode set. -/
  tSetter : Nat
  /-- `T_W1`: wait after each of the first two wake-up bytes. -/
  tW1 : Nat
  /-- `T_W3`: wait after the third wake-up byte. -/
  tW3 : Nat
  /-- `T_POR`: wait between reset release and the first wake-up byte. -/
  tPor : Nat
  /-- `DDRAM_AW`: DDRAM address width. -/
  ddramAw : DdramWidth
  /-- `CGRAM_AW`: CGRAM address width. -/
  cgramAw : CgramWidth
  /-- `LINE1_BASE`: DDRAM address of the first visible cell of line 1. -/
  line1Base : BitVec 7
  /-- `LINE2_BASE`: DDRAM address of the first visible cell of line 2. -/
  line2Base : BitVec 7
  /-- `LINE_VISIBLE`: visible cells of a line, never enforced. -/
  lineVisible : Nat
  /-- `INDEX_MASK`: the mask of a cursor index. -/
  indexMask : Byte
  /-- `PIN_SER`. -/
  pinSer : Nat
  /-- `PIN_RCLK`. -/
  pinRclk : Nat
  /-- `PIN_SRCLK`. -/
  pinSrclk : Nat
  /-- `PIN_E`. -/
  pinE : Nat
  /-- `PIN_RW`. -/
  pinRw : Nat
  /-- `PIN_RS`. -/
  pinRs : Nat
  deriving DecidableEq, Repr

/-- The parameters a constraint of R8 can fault; a refused launch names one of them (60_exceptions.md R201, R204). -/
inductive Param where
  | tS | tEn | tClr | tW1 | tW3
  /-- The identity bound to this line equals that of a line before it. -/
  | pin (p : Pin)
  deriving DecidableEq, Repr

/-- The identity bound to a line (R7). -/
def Config.identity (c : Config) : Pin → Nat
  | .ser => c.pinSer
  | .srclk => c.pinSrclk
  | .rclk => c.pinRclk
  | .e => c.pinE
  | .rw => c.pinRw
  | .rs => c.pinRs

/-- The default column of R7. The pin identities are OPEN there (92_eei_decisions.md D30): DESIGN CHOICE, six distinct
numbers (log entry 2). -/
def Config.default : Config where
  wData := .eight
  nStages := .eight
  tS := 1000
  tEn := 1000
  tChar := 50000
  tAddr := 100000
  tClr := 1700000
  tSetter := 100000
  tW1 := 10000000
  tW3 := 250000
  tPor := 0
  ddramAw := .seven
  cgramAw := .six
  line1Base := 0x00
  line2Base := 0x40
  lineVisible := 16
  indexMask := 0x0F
  pinSer := 0
  pinRclk := 1
  pinSrclk := 2
  pinE := 3
  pinRw := 4
  pinRs := 5

end Sys2Proof
end

