-- ==== Sys2Proof/Machine/Operands.lean ====
section
/-! DEFINITION. The operand forms: the bit selection of a shift (20_memory.md R55), the command byte each LCD operation
assembles from its operands (30_encoding.md R79), and the settle class of a raw command byte (30_encoding.md R81). -/

namespace Sys2Proof.Machine

/-- A flag as a byte, zero-extended (00_scope.md R9). -/
def flagByte (b : Bool) : Byte := (BitVec.ofBool b).setWidth 8

/-- The k-th of w bits shifted, `x[w-1-k]`: most significant bit first (R55, with w = `W_DATA` = 8). -/
def shiftedBit (w : Nat) (x : Byte) (k : Nat) : Bool := x.getLsbD (w - 1 - k)

/-- `0x30 | (e << 4) | (n << 3) | (s << 2)` (42_lcd_commands.md R143). -/
def funcsetByte (e n s : Bool) : Byte := 0x30 ||| (flagByte e <<< 4) ||| (flagByte n <<< 3) ||| (flagByte s <<< 2)

/-- `0x08 | (d << 2) | (c << 1) | k` (42_lcd_commands.md R144). -/
def dispsetByte (d c k : Bool) : Byte := 0x08 ||| (flagByte d <<< 2) ||| (flagByte c <<< 1) ||| flagByte k

/-- `0x04 | (i << 1) | h` (42_lcd_commands.md R145). -/
def entrysetByte (i h : Bool) : Byte := 0x04 ||| (flagByte i <<< 1) ||| flagByte h

/-- `0x80 | a` (42_lcd_commands.md R146). -/
def ddramByte (a : BitVec 7) : Byte := 0x80 ||| a.setWidth 8

/-- `0x40 | a` (42_lcd_commands.md R147). -/
def cgramByte (a : BitVec 6) : Byte := 0x40 ||| a.setWidth 8

/-- The DDRAM address of SETCURSOR: the index masked with `INDEX_MASK`, ORed with the line's base; at the defaults
`(idx & 0x0F) | (if l = 1 then 0x40 else 0x00)` (42_lcd_commands.md R148; 00_scope.md R7; log entry 20). -/
def cursorAddr (c : Config) (l : Bool) (idx : Byte) : BitVec 7 :=
  (idx &&& c.indexMask).setWidth 7 ||| (if l then c.line2Base else c.line1Base)

/-- A DDRAM address in one of the two visible windows (20_memory.md R51). -/
def ddramVisible (c : Config) (a : BitVec 7) : Bool :=
  (c.line1Base.toNat ≤ a.toNat && a.toNat < c.line1Base.toNat + c.lineVisible) ||
    (c.line2Base.toNat ≤ a.toNat && a.toNat < c.line2Base.toNat + c.lineVisible)

/-- The settle time a transfer requires, from its RS bit and byte (R81). -/
def rawNeed (c : Config) (rs : Bool) (x : Byte) : Nat :=
  if rs then c.tChar
  else if x.toNat ≤ 0x03 then c.tClr
  else if x.toNat ≤ 0x3F then c.tSetter
  else c.tAddr

end Sys2Proof.Machine
end

