-- ==== Sys2Proof/Machine/Types.lean ====
section
/-! DEFINITION. The data State is made of: line levels, actions, shift-register stages, phases and host actions
(00_scope.md R11; 10_state.md R21, R25 to R27, R32). -/

namespace Sys2Proof.Machine

/-- The six output registers, each one bit (10_state.md R25). -/
structure Pins where
  ser : Bool
  srclk : Bool
  rclk : Bool
  e : Bool
  rw : Bool
  rs : Bool
  deriving DecidableEq, Repr

/-- An action: drive a line to a level, or hold every line for at least d nanoseconds (00_scope.md R10, R11). -/
inductive Action where
  | set (p : Pin) (v : Bool)
  | wait (d : Nat)
  deriving DecidableEq, Repr

/-- An action still to be performed, with the settle time its transfer requires (41_lcd_transfer.md R121). Only the
`set e false` of a transfer carries a `need`; no line carries it (log entry 7). -/
structure SeqItem where
  action : Action
  need : Nat
  deriving DecidableEq, Repr

/-- One stage of the external shift register: 0, 1 or unknown `?` (10_state.md R32). -/
inductive Stage where
  | zero | one | unknown
  deriving DecidableEq, Repr

/-- Eight stages, `s7` the top one (10_state.md R32). -/
structure Stages where
  s7 : Stage
  s6 : Stage
  s5 : Stage
  s4 : Stage
  s3 : Stage
  s2 : Stage
  s1 : Stage
  s0 : Stage
  deriving DecidableEq, Repr

/-- The phase register (10_state.md R26). -/
inductive Phase where
  /-- The wake-up sequence is running. -/
  | wake
  /-- A request may be accepted. -/
  | ready
  /-- An accepted operation is running. -/
  | busy
  deriving DecidableEq, Repr

/-- One action of the host program (10_state.md R21). -/
inductive HostAction where
  /-- Present one request. -/
  | req (r : Request)
  /-- Let d nanoseconds pass with no request. -/
  | idle (d : Nat)
  deriving DecidableEq, Repr

end Sys2Proof.Machine
end

