-- ==== Sys2Proof/Machine/Sequences.lean ====
section
/-! DEFINITION. The action lists SRLCD performs, built as the spec's pseudocode builds them (40_shift.md R101 to R105;
41_lcd_transfer.md R120, R124; 42_lcd_commands.md R140, R146; 43_lcd_text.md R171; 70_reset_and_hazards.md R231). An
operation's meaning is its action list (00_scope.md R11). -/

namespace Sys2Proof.Machine

/-- `pin(P) <- v` (R10). -/
def drivePin (p : Pin) (v : Bool) : SeqItem := ⟨.set p v, 0⟩

/-- `wait(d)` (R10). -/
def hold (d : Nat) : SeqItem := ⟨.wait d, 0⟩

/-- `pulse(P, th)` (R10); `need` tags the fall of a transfer's enable pulse (R121) and is 0 elsewhere. -/
def pulse (c : Config) (p : Pin) (th need : Nat) : List SeqItem :=
  [drivePin p true, hold th, ⟨.set p false, need⟩, hold c.tS]

/-- `bitSeq(b)` (R101). -/
def bitSeq (c : Config) (b : Bool) : List SeqItem :=
  drivePin .ser b :: hold c.tS :: pulse c .srclk c.tS 0

/-- `byteSeq(x)`: k = 0, 1, ..., `W_DATA - 1` shifts `x[W_DATA-1-k]` (R102, which writes 7). -/
def byteSeq (c : Config) (x : Byte) : List SeqItem :=
  (List.range c.wData.bits).flatMap fun k => bitSeq c (shiftedBit c.wData.bits x k)

/-- `latchSeq` (R103). -/
def latchSeq (c : Config) : List SeqItem := pulse c .rclk c.tS 0

/-- `putByteSeq(x)` (R105). -/
def putByteSeq (c : Config) (x : Byte) : List SeqItem := byteSeq c x ++ latchSeq c

/-- `xferSeq(rs, x)`, tagged with the settle time it requires (R120, R121). -/
def xferSeq (c : Config) (rs : Bool) (x : Byte) (need : Nat) : List SeqItem :=
  putByteSeq c x ++
    ([drivePin .rs rs, hold c.tS, drivePin .rw false, hold c.tS] ++ pulse c .e c.tEn need)

/-- `cmdSeq(x, t) = xferSeq(0, x); wait(t)`, with need = t (R140). -/
def cmdSeq (c : Config) (x : Byte) (t : Nat) : List SeqItem := xferSeq c false x t ++ [hold t]

/-- `charSeq(c) = xferSeq(1, c); wait(T_CHAR)` (R124). -/
def charSeq (c : Config) (x : Byte) : List SeqItem := xferSeq c true x c.tChar ++ [hold c.tChar]

/-- `strSeq(t)`: every byte of the text as a character write, first byte first (R171). -/
def strSeq (c : Config) (t : Text) : List SeqItem := t.flatMap (charSeq c)

/-- `ddramSeq(a) = cmdSeq(0x80 | a, T_ADDR)` (R146). -/
def ddramSeq (c : Config) (a : BitVec 7) : List SeqItem := cmdSeq c (ddramByte a) c.tAddr

/-- `wakeSeq`: `T_POR` where it is above 0, then 0x30 three times with `T_W1`, `T_W1`, `T_W3` (R231). -/
def wakeSeq (c : Config) : List SeqItem :=
  (if c.tPor > 0 then [hold c.tPor] else []) ++
    (cmdSeq c 0x30 c.tW1 ++ cmdSeq c 0x30 c.tW1 ++ cmdSeq c 0x30 c.tW3)

end Sys2Proof.Machine
end

