-- ==== Sys2Proof/Machine/State.lean ====
section
/-! DEFINITION. The state record of 10_state.md R37, with the configuration and the inputs of a run in it, the reasons a
step can stop (60_exceptions.md R201, R202), and the state at reset release (10_state.md R36). -/

namespace Sys2Proof.Machine

/-- The whole state (R37). -/
structure State where
  /-- The parameters of 00_scope.md R7; no operation changes one (R31). -/
  config : Config
  /-- The six output registers (R25). -/
  pins : Pins
  /-- The phase register (R26). -/
  phase : Phase
  /-- The actions not yet performed: the only analogue of a program counter (R27). -/
  seq : List SeqItem
  /-- The eight shift stages of the external shift register (R32). -/
  sr : Stages
  /-- Its eight storage outputs, which drive the controller's data bus (R32). -/
  q : Stages
  /-- What the controller has sampled: (RS, byte), oldest first (R33). -/
  busLog : List (Bool × Byte)
  /-- The time of the last falling edge of E and the settle time its transfer requires (R33). -/
  lastXfer : Option (Nat × Nat)
  /-- Nanoseconds since reset release (R35). -/
  now : Nat
  /-- The actions performed since reset release, oldest first (R11, R35). -/
  trace : List Action
  /-- An input of the run: the host actions still to be presented (R21, R37). -/
  host : List HostAction
  /-- An input of the run: when the host asserts `rst`, in nanoseconds since reset release; the first in this run, the
  next in the run after it (R23; log entry 4). -/
  resets : List Nat
  deriving DecidableEq, Repr

/-- The faults of R202. Each holds the time `now`, the action's index in the trace (counted from 0: DESIGN CHOICE, log entry
21), the values its rule names, and the state after the action, because the action is performed (R209). No claim may rest
on a later step (R210). -/
inductive Fault where
  /-- Code 16, `LcdTimingViolation`: raised by the sequencer at a `Set(E, 1)` less than `need` after the last fall of E
  (R205). Safe: the model stops where the chip goes on. -/
  | lcdTimingViolation (now index tFall need : Nat) (after : State)
  /-- Code 17, `UnknownBusValue`: raised by the sequencer at a falling edge of E with a `?` on the data bus (R206). Safe:
  the model stops and gives the controller no invented value. -/
  | unknownBusValue (now index : Nat) (q : Stages) (after : State)
  deriving DecidableEq, Repr

/-- The refusals of R201, each with what that rule says is recorded, and the host's own `notModelled`. -/
inductive Refusal where
  /-- Raised by an arm of `exec` for an instruction without a meaning; no arm raises it. Safe: nothing can be proved of
  such an instruction. -/
  | notModelled (mnemonic : String)
  /-- Code 1, raised by the request decoder: OP is reserved (30_encoding.md R75). Safe. -/
  | reservedOpcode (word : ReqWord)
  /-- Code 2, raised by the request decoder: a reserved-zero bit is 1 (30_encoding.md R74). Safe. -/
  | reservedField (word : ReqWord)
  /-- Code 3, raised by the request decoder: a text the operation does not use is not empty (30_encoding.md R76). Safe. -/
  | textOperand (word : ReqWord) (length1 length2 : Nat)
  /-- Code 4, raised at launch: a parameter breaks 00_scope.md R8 (R204). Safe. -/
  | badConfiguration (parameter : Param)
  /-- Code 5, raised when `rst` is asserted in WAKE or BUSY (70_reset_and_hazards.md R235). Safe. -/
  | resetDuringOperation (time : Nat)
  deriving DecidableEq, Repr

/-- All six lines low: the level reset forces (R36, 70_reset_and_hazards.md R230). -/
def Pins.low : Pins := ⟨false, false, false, false, false, false⟩

/-- Every stage `?`: the contents after power-on (R32). -/
def Stages.unknown : Stages :=
  ⟨.unknown, .unknown, .unknown, .unknown, .unknown, .unknown, .unknown, .unknown⟩

/-- The state at reset release after power-on, for a configuration and the inputs of a run (R36, R38). -/
def State.launch (c : Config) (host : List HostAction) (resets : List Nat) : State where
  config := c
  pins := Pins.low
  phase := .wake
  seq := wakeSeq c
  sr := Stages.unknown
  q := Stages.unknown
  busLog := []
  lastXfer := none
  now := 0
  trace := []
  host := host
  resets := resets

/-- The machine right after reset: the defaults of 00_scope.md R7 and no input presented (R36). -/
def State.reset : State := State.launch Config.default [] []

end Sys2Proof.Machine
end

