-- ==== Sys2Proof/Machine/Flags.lean ====
section
/-! DEFINITION. Status. SRLCD has no status flags and no condition codes (10_state.md R30), so no operation computes one;
all a host can see is `ready` (10_state.md R23). The codes of 60_exceptions.md R201 and R202 number the model's outcomes
and are stored nowhere (R203). -/

namespace Sys2Proof.Machine

/-- The `ready` output: 1 exactly when `phase = READY` (R23). -/
def State.ready (s : State) : Bool := decide (s.phase = .ready)

/-- The `req_valid` input: a request is presented (R23). DESIGN CHOICE: it is 1 whenever the next host action is a request,
in WAKE and BUSY too, where the host holds it (log entry 18). -/
def State.reqValid (s : State) : Bool :=
  match s.host with
  | .req _ :: _ => true
  | _ => false

/-- The code of a fault (R202). -/
def faultCode : Fault → Nat
  | .lcdTimingViolation .. => 16
  | .unknownBusValue .. => 17

/-- The code of a refusal (R201); the host's own refusal has none. -/
def refusalCode : Refusal → Option Nat
  | .reservedOpcode _ => some 1
  | .reservedField _ => some 2
  | .textOperand .. => some 3
  | .badConfiguration _ => some 4
  | .resetDuringOperation _ => some 5
  | _ => none

end Sys2Proof.Machine
end

