-- ==== Sys2Proof/Machine/Ops.lean ====
section
/-! DEFINITION. The shared operations: the shift register's reactions to edges (60_exceptions.md R214 to R217), the
controller's sampling (R218), acceptance of a request (10_state.md R26, R27), idling (R21), the launch check (60_exceptions.md
R204) and reset (70_reset_and_hazards.md R230 to R235). SRLCD has no exception, trap entry or trap return (60_exceptions.md
R200, R209, R210), so no operation takes one; SRLCD has no memory (20_memory.md R50), so no operation reads or writes one. -/

namespace Sys2Proof.Machine

/-- A known level as a stage. -/
def Stage.ofBit (b : Bool) : Stage := if b then .one else .zero

/-- The level a stage holds, none where it is `?`. -/
def Stage.bit? : Stage → Option Bool
  | .zero => some false
  | .one => some true
  | .unknown => none

/-- The stages that hold byte x: stage i is `x[i]` (20_memory.md R56). -/
def Stages.ofByte (x : Byte) : Stages :=
  ⟨Stage.ofBit (x.getLsbD 7), Stage.ofBit (x.getLsbD 6), Stage.ofBit (x.getLsbD 5), Stage.ofBit (x.getLsbD 4),
    Stage.ofBit (x.getLsbD 3), Stage.ofBit (x.getLsbD 2), Stage.ofBit (x.getLsbD 1), Stage.ofBit (x.getLsbD 0)⟩

/-- The byte on the stages, none where a stage is `?` (R206). -/
def Stages.byte? (t : Stages) : Option Byte :=
  match t.s7.bit?, t.s6.bit?, t.s5.bit?, t.s4.bit?, t.s3.bit?, t.s2.bit?, t.s1.bit?, t.s0.bit? with
  | some b7, some b6, some b5, some b4, some b3, some b2, some b1, some b0 =>
    some (BitVec.ofBool b7 ++ BitVec.ofBool b6 ++ BitVec.ofBool b5 ++ BitVec.ofBool b4 ++ BitVec.ofBool b3 ++
      BitVec.ofBool b2 ++ BitVec.ofBool b1 ++ BitVec.ofBool b0)
  | _, _, _, _, _, _, _, _ => none

/-- The shift step `sr <- {sr[6:0], b}`: stage 0 takes the level, every other stage its lower neighbour (R214). -/
def Stages.shiftIn (b : Bool) (t : Stages) : Stages := ⟨t.s6, t.s5, t.s4, t.s3, t.s2, t.s1, t.s0, Stage.ofBit b⟩

/-- The level of a line (R25). -/
def Pins.get (t : Pins) : Pin → Bool
  | .ser => t.ser
  | .srclk => t.srclk
  | .rclk => t.rclk
  | .e => t.e
  | .rw => t.rw
  | .rs => t.rs

/-- Drive a line to a level (R25). -/
def Pins.drive (t : Pins) (p : Pin) (v : Bool) : Pins :=
  match p with
  | .ser => { t with ser := v }
  | .srclk => { t with srclk := v }
  | .rclk => { t with rclk := v }
  | .e => { t with e := v }
  | .rw => { t with rw := v }
  | .rs => { t with rs := v }

/-- Driving line p to v makes a rising edge of p: it was 0 and becomes 1. -/
def Pins.rises (t : Pins) (p : Pin) (v : Bool) : Bool := !t.get p && v

/-- Driving line p to v makes a falling edge of p: it was 1 and becomes 0. -/
def Pins.falls (t : Pins) (p : Pin) (v : Bool) : Bool := t.get p && !v

/-- The shift stages after line p is driven to v: a rising edge of SRCLK shifts SER in, nothing else acts on them (R214,
R216). -/
def srAfter (t : Pins) (sr : Stages) (p : Pin) (v : Bool) : Stages :=
  if p = .srclk ∧ t.rises p v then sr.shiftIn t.ser else sr

/-- The storage outputs after line p is driven to v: a rising edge of RCLK takes all eight stages together, nothing else
acts on them (R215, R216). -/
def qAfter (t : Pins) (sr q : Stages) (p : Pin) (v : Bool) : Stages :=
  if p = .rclk ∧ t.rises p v then sr else q

/-- A line changes and the shift register reacts to the edge. -/
def State.setPin (s : State) (p : Pin) (v : Bool) : State :=
  { s with
    pins := s.pins.drive p v
    sr := srAfter s.pins s.sr p v
    q := qAfter s.pins s.sr s.q p v }

/-- The controller's data bus: DB[i] = q[i] at all times (R217). -/
def State.db (s : State) : Stages := s.q

/-- `BusWrite(rs, x)`: the controller takes one pair (R218). What it then does is outside SRLCD (R220). -/
def busWrite (rs : Bool) (x : Byte) (s : State) : State := { s with busLog := s.busLog ++ [(rs, x)] }

/-- The head action leaves `seq` and enters the trace; an operation whose last action this is is complete (R11, R26,
R27). -/
def State.retire (s : State) (a : Action) : State :=
  { s with
    trace := s.trace ++ [a]
    seq := s.seq.tail
    phase := if s.seq.tail.isEmpty then .ready else s.phase }

/-- Acceptance of a request: in READY `seq` is loaded with the operation's whole action list and the phase becomes BUSY; an
operation whose list is empty completes at once (R26, R27). While `ready = 0` nothing is accepted: the host holds the
request (R23, 70_reset_and_hazards.md R241). -/
def accept (items : List SeqItem) (s : State) : Host.Outcome State Fault Refusal :=
  if s.phase = .ready then
    .next { s with seq := items, phase := if items.isEmpty then .ready else .busy }
  else .next s

/-- How much of an `Idle(d)` passes before the next reset of this run (log entry 5); all of it when none is due. -/
def idleSpan (s : State) (d : Nat) : Nat :=
  match s.resets with
  | t :: _ => min d (t - s.now)
  | [] => d

/-- `Idle(d)`: time passes with every line held; one `Wait(d)` enters the trace (R21). -/
def idle (d : Nat) (s : State) : State :=
  { s with now := s.now + idleSpan s d, trace := s.trace ++ [.wait (idleSpan s d)] }

/-- The first of a list of lines whose identity equals that of a line before it. -/
def pinClash : List Nat → List (Pin × Nat) → Option Pin
  | _, [] => none
  | seen, (p, n) :: rest => if n ∈ seen then some p else pinClash (n :: seen) rest

/-- The bound lines in the order of R7. -/
def boundLines (c : Config) : List (Pin × Nat) :=
  [(.ser, c.pinSer), (.rclk, c.pinRclk), (.srclk, c.pinSrclk), (.e, c.pinE), (.rw, c.pinRw), (.rs, c.pinRs)]

/-- The first parameter that breaks a constraint of 00_scope.md R8, in the order R8 lists them (log entry 11). -/
def configViolation (c : Config) : Option Param :=
  if c.tS < 1 then some .tS
  else if c.tEn < 1000 then some .tEn
  else if c.tClr < 1500000 then some .tClr
  else if c.tW1 < 10000000 then some .tW1
  else if c.tW3 < 250000 then some .tW3
  else if c.tW1 ≤ c.tW3 then some .tW1
  else (pinClash [] (boundLines c)).map .pin

/-- The launch check, once, before any action of the run (R204, R208). -/
def launchViolation (s : State) : Option Param :=
  if s.phase = .wake ∧ s.trace = [] then configViolation s.config else none

/-- The nanoseconds the next action of the running sequence holds the lines. -/
def headWait (s : State) : Nat :=
  match s.seq with
  | ⟨.wait d, _⟩ :: _ => d
  | _ => 0

/-- The time of a reset that lands now or inside the wait that is about to run (log entry 4). -/
def resetDue (s : State) : Option Nat :=
  match s.resets with
  | t :: _ => if t ≤ s.now ∨ (s.phase ≠ .ready ∧ t < s.now + headWait s) then some t else none
  | [] => none

/-- A new run: the lines forced low, WAKE, the wake-up list loaded, `now`, `trace` and `last_xfer` afresh; `sr`, `q` and
`bus_log` are the devices' and stay (70_reset_and_hazards.md R230, R234). -/
def restart (s : State) : State :=
  { s with
    pins := Pins.low
    phase := .wake
    seq := wakeSeq s.config
    lastXfer := none
    now := 0
    trace := []
    resets := s.resets.tail }

/-- `rst` is asserted at time t: in READY a new run starts, in WAKE or BUSY the model refuses (70_reset_and_hazards.md
R234, R235). -/
def takeReset (t : Nat) (s : State) : Host.Outcome State Fault Refusal :=
  if s.phase = .ready then .next (restart s) else .refused (.resetDuringOperation t)

end Sys2Proof.Machine
end

