-- ==== Sys2Proof/Machine/Bus.lean ====
section
/-! DEFINITION. What the controller takes at a falling edge of E, one definition per LCD_CMD row and one for LCD_DATA
(30_encoding.md R78, R80). The whole effect the spec gives such a byte is its entry in `bus_log` (60_exceptions.md R218;
10_state.md R33, R34): what the controller does with it is outside the spec (R220). The step lowers E, sets `last_xfer` and
retires the action around it. -/

namespace Sys2Proof.Machine

/-- LCD_CLEAR, `00000001`. -/
def execLcdClear (s : State) : Host.Outcome State Fault Refusal := .next (busWrite false 0x01 s)

/-- LCD_HOME, `00000010`. -/
def execLcdHome (s : State) : Host.Outcome State Fault Refusal := .next (busWrite false 0x02 s)

/-- LCD_ENTRY_MODE_SET, `000001ih`. -/
def execLcdEntryModeSet (i h : Bool) (s : State) : Host.Outcome State Fault Refusal :=
  .next (busWrite false (entrysetByte i h) s)

/-- LCD_DISPLAY_SET, `00001dck`. -/
def execLcdDisplaySet (d c k : Bool) (s : State) : Host.Outcome State Fault Refusal :=
  .next (busWrite false (dispsetByte d c k) s)

/-- LCD_FUNCTION_SET, `0011ns00`: the 8-bit-bus bit is 1 in the base. -/
def execLcdFunctionSet (n sm : Bool) (s : State) : Host.Outcome State Fault Refusal :=
  .next (busWrite false (funcsetByte true n sm) s)

/-- LCD_CGRAM_ADDRESS_SET, `01aaaaaa`. -/
def execLcdCgramAddressSet (a : BitVec 6) (s : State) : Host.Outcome State Fault Refusal :=
  .next (busWrite false (cgramByte a) s)

/-- LCD_DDRAM_ADDRESS_SET, `1aaaaaaa`. -/
def execLcdDdramAddressSet (a : BitVec 7) (s : State) : Host.Outcome State Fault Refusal :=
  .next (busWrite false (ddramByte a) s)

/-- LCD_DATA: any byte with RS = 1, passed through uninterpreted. -/
def execLcdData (x : Byte) (s : State) : Host.Outcome State Fault Refusal := .next (busWrite true x s)

end Sys2Proof.Machine
end

