-- ==== Sys2Proof/Machine/Commands.lean ====
section
/-! DEFINITION. The LCD commands (42_lcd_commands.md R140 to R150): one command byte through `cmdSeq`, three for
DEFAULTSETUP. -/

namespace Sys2Proof.Machine

/-- CLEAR = cmdSeq(0x01, T_CLR) (R141). -/
def execClear (s : State) : Host.Outcome State Fault Refusal := accept (cmdSeq s.config 0x01 s.config.tClr) s

/-- HOME = cmdSeq(0x02, T_CLR) (R142). -/
def execHome (s : State) : Host.Outcome State Fault Refusal := accept (cmdSeq s.config 0x02 s.config.tClr) s

/-- The action list of FUNCSET (R143). -/
def funcsetSeq (c : Config) (e n s : Bool) : List SeqItem := cmdSeq c (funcsetByte e n s) c.tSetter

/-- The action list of DISPSET (R144). -/
def dispsetSeq (c : Config) (d cur k : Bool) : List SeqItem := cmdSeq c (dispsetByte d cur k) c.tSetter

/-- The action list of ENTRYSET (R145). -/
def entrysetSeq (c : Config) (i h : Bool) : List SeqItem := cmdSeq c (entrysetByte i h) c.tSetter

/-- FUNCSET e, n, s (R143). -/
def execFuncset (e n sm : Bool) (s : State) : Host.Outcome State Fault Refusal :=
  accept (funcsetSeq s.config e n sm) s

/-- DISPSET d, c, k (R144). -/
def execDispset (d c k : Bool) (s : State) : Host.Outcome State Fault Refusal := accept (dispsetSeq s.config d c k) s

/-- ENTRYSET i, h (R145). -/
def execEntryset (i h : Bool) (s : State) : Host.Outcome State Fault Refusal := accept (entrysetSeq s.config i h) s

/-- SETDDRAM(a) = ddramSeq(a) (R146). -/
def execSetddram (a : BitVec 7) (s : State) : Host.Outcome State Fault Refusal := accept (ddramSeq s.config a) s

/-- SETCGRAM(a) = cmdSeq(0x40 | a, T_ADDR) (R147). -/
def execSetcgram (a : BitVec 6) (s : State) : Host.Outcome State Fault Refusal :=
  accept (cmdSeq s.config (cgramByte a) s.config.tAddr) s

/-- SETCURSOR(l, idx) = ddramSeq(addr) (R148). -/
def execSetcursor (l : Bool) (idx : Byte) (s : State) : Host.Outcome State Fault Refusal :=
  accept (ddramSeq s.config (cursorAddr s.config l idx)) s

/-- DEFAULTSETUP: FUNCSET(1, 1, 1), DISPSET(1, 1, 1), ENTRYSET(1, 0) (R149). -/
def execDefaultsetup (s : State) : Host.Outcome State Fault Refusal :=
  accept (funcsetSeq s.config true true true ++ dispsetSeq s.config true true true ++
    entrysetSeq s.config true false) s

end Sys2Proof.Machine
end

