-- ==== Sys2Proof/Machine/Shift.lean ====
section
/-! DEFINITION. The shift-layer operations (40_shift.md R100 to R106). A meaning accepts the request: it loads the action
list the rule gives (10_state.md R27), and the steps after it perform that list. -/

namespace Sys2Proof.Machine

/-- SHIFTBIT(b) = bitSeq(b) (R101). -/
def execShiftbit (b : Bool) (s : State) : Host.Outcome State Fault Refusal := accept (bitSeq s.config b) s

/-- SHIFTBYTE(x) = byteSeq(x) (R102). -/
def execShiftbyte (x : Byte) (s : State) : Host.Outcome State Fault Refusal := accept (byteSeq s.config x) s

/-- LATCH = latchSeq (R103). DESIGN CHOICE: RCLK rises at once, also right after a COMMAND, where 70_reset_and_hazards.md
R239 has the next RCLK rise 25 settle times after the fall of E (log entry 19). -/
def execLatch (s : State) : Host.Outcome State Fault Refusal := accept (latchSeq s.config) s

/-- PUTBIT(b) = bitSeq(b); latchSeq (R104). DESIGN CHOICE: its latch comes 4 settle times after the fall of E of a COMMAND
right before it, where 70_reset_and_hazards.md R239 would keep q for 25 (log entry 19). -/
def execPutbit (b : Bool) (s : State) : Host.Outcome State Fault Refusal :=
  accept (bitSeq s.config b ++ latchSeq s.config) s

/-- PUTBYTE(x) = putByteSeq(x) (R105). -/
def execPutbyte (x : Byte) (s : State) : Host.Outcome State Fault Refusal := accept (putByteSeq s.config x) s

end Sys2Proof.Machine
end

