-- ==== Sys2Proof/Machine/Text.lean ====
section
/-! DEFINITION. The text operations (43_lcd_text.md R170 to R173). -/

namespace Sys2Proof.Machine

/-- WRITESTR(t) = strSeq(t) (R171). -/
def execWritestr (t : Text) (s : State) : Host.Outcome State Fault Refusal := accept (strSeq s.config t) s

/-- WRITEMSG(t1, t2) = strSeq(t1); ddramSeq(LINE2_BASE), 0x40 at the default; strSeq(t2) (R172; log entry 20). -/
def execWritemsg (t1 t2 : Text) (s : State) : Host.Outcome State Fault Refusal :=
  accept (strSeq s.config t1 ++ ddramSeq s.config s.config.line2Base ++ strSeq s.config t2) s

end Sys2Proof.Machine
end

