-- ==== Sys2Proof/Machine/Transfer.lean ====
section
/-! DEFINITION. The two operations that are a bare transfer (41_lcd_transfer.md R120 to R125). -/

namespace Sys2Proof.Machine

/-- COMMAND(x) = xferSeq(0, x), with no settle of its own and need(0, x) as its tag (R121, R123). -/
def execCommand (x : Byte) (s : State) : Host.Outcome State Fault Refusal :=
  accept (xferSeq s.config false x (rawNeed s.config false x)) s

/-- WRITECHAR(c) = xferSeq(1, c); wait(T_CHAR) (R124). -/
def execWritechar (c : Byte) (s : State) : Host.Outcome State Fault Refusal := accept (charSeq s.config c) s

end Sys2Proof.Machine
end

