-- ==== Sys2Proof/Machine/Dispatch.lean ====
section
/-! DEFINITION. The dispatch: one arm per constructor of Instr. -/

namespace Sys2Proof.Machine

/-- The meaning of one instruction: acceptance of a request, or the controller's taking of a byte. -/
def exec (i : Instr) (s : State) : Host.Outcome State Fault Refusal :=
  match i with
  -- the shift layer
  | .shiftbit b => Sys2Proof.Machine.execShiftbit b s
  | .shiftbyte x => Sys2Proof.Machine.execShiftbyte x s
  | .latch => Sys2Proof.Machine.execLatch s
  | .putbit b => Sys2Proof.Machine.execPutbit b s
  | .putbyte x => Sys2Proof.Machine.execPutbyte x s
  -- the bare transfers
  | .command x => Sys2Proof.Machine.execCommand x s
  | .writechar c => Sys2Proof.Machine.execWritechar c s
  -- the LCD commands
  | .clear => Sys2Proof.Machine.execClear s
  | .home => Sys2Proof.Machine.execHome s
  | .funcset e n sm => Sys2Proof.Machine.execFuncset e n sm s
  | .dispset d c k => Sys2Proof.Machine.execDispset d c k s
  | .entryset inc h => Sys2Proof.Machine.execEntryset inc h s
  | .setddram a => Sys2Proof.Machine.execSetddram a s
  | .setcgram a => Sys2Proof.Machine.execSetcgram a s
  | .setcursor l idx => Sys2Proof.Machine.execSetcursor l idx s
  | .defaultsetup => Sys2Proof.Machine.execDefaultsetup s
  -- the text operations
  | .writestr t => Sys2Proof.Machine.execWritestr t s
  | .writemsg t1 t2 => Sys2Proof.Machine.execWritemsg t1 t2 s
  -- what the controller takes from the bus
  | .lcdClear => Sys2Proof.Machine.execLcdClear s
  | .lcdHome => Sys2Proof.Machine.execLcdHome s
  | .lcdEntryModeSet inc h => Sys2Proof.Machine.execLcdEntryModeSet inc h s
  | .lcdDisplaySet d c k => Sys2Proof.Machine.execLcdDisplaySet d c k s
  | .lcdFunctionSet n sm => Sys2Proof.Machine.execLcdFunctionSet n sm s
  | .lcdCgramAddressSet a => Sys2Proof.Machine.execLcdCgramAddressSet a s
  | .lcdDdramAddressSet a => Sys2Proof.Machine.execLcdDdramAddressSet a s
  | .lcdData x => Sys2Proof.Machine.execLcdData x s

end Sys2Proof.Machine
end

