-- ==== Sys2Proof/Machine/Sequencer.lean ====
section
/-! DEFINITION. What one step does: performing the head action of `seq` (10_state.md R27) with the timing check
(60_exceptions.md R205) and the controller's sampling (R206, R218), or, in READY, taking the next host action (10_state.md
R21). It stands apart from Step.lean, which only calls it. -/

namespace Sys2Proof.Machine

/-- `Set(E, 1)` at `now` comes less than `need` after the last fall of E (R205): the fall's time and the need. -/
def timingBreach (s : State) : Option (Nat × Nat) :=
  match s.lastXfer with
  | some (tFall, need) => if s.now - tFall < need then some (tFall, need) else none
  | none => none

/-- The state after a falling edge of E but for the controller's taking of the byte: E is low, the action retired, and
`last_xfer` set to this time and the transfer's tag (41_lcd_transfer.md R121). -/
def State.fallE (s : State) (need : Nat) : State :=
  { (s.retire (.set .e false)).setPin .e false with lastXfer := some (s.now, need) }

/-- The controller samples (RS, DB) at a falling edge of E (R218): an unknown bit is fault 17 (R206); a byte of the
controller's command or data layout is taken as that instruction; a command byte of no pattern is logged unchanged
(30_encoding.md R82). The fault records the action's index in the trace (R202). DESIGN CHOICE: counted from 0 (log entry
21). -/
def sample (s : State) (need : Nat) : Host.Outcome State Fault Refusal :=
  match s.db.byte? with
  | none => .fault (.unknownBusValue s.now s.trace.length s.q (s.fallE need))
  | some x =>
    match decodeBus s.pins.rs x with
    | some i => exec i (s.fallE need)
    | none => .next (busWrite s.pins.rs x (s.fallE need))

/-- `Set(p, v)` (R10), with the edges it makes. A fault records the action's index in the trace (60_exceptions.md R202).
DESIGN CHOICE: counted from 0 (log entry 21). -/
def performSet (p : Pin) (v : Bool) (need : Nat) (s : State) : Host.Outcome State Fault Refusal :=
  if p = .e ∧ s.pins.falls p v then sample s need
  else if p = .e ∧ v then
    match timingBreach s with
    | some (tFall, required) =>
      .fault (.lcdTimingViolation s.now s.trace.length tFall required ((s.retire (.set p v)).setPin p v))
    | none => .next ((s.retire (.set p v)).setPin p v)
  else .next ((s.retire (.set p v)).setPin p v)

/-- `Wait(d)` (R10): one step that adds d to `now` (10_state.md R28). -/
def performWait (d : Nat) (s : State) : State := { s.retire (.wait d) with now := s.now + d }

/-- Perform the head action of `seq` (R27). -/
def perform (it : SeqItem) (s : State) : Host.Outcome State Fault Refusal :=
  match it.action with
  | .wait d => .next (performWait d s)
  | .set p v => performSet p v it.need s

/-- The refusal of a request the decoder gives no instruction (30_encoding.md R77; 60_exceptions.md R201). -/
def refuseRequest (r : Request) : DecodeError → Refusal
  | .reservedOpcode => .reservedOpcode r.word
  | .reservedField => .reservedField r.word
  | .textOperand => .textOperand r.word r.text1.length r.text2.length

/-- Present a request in READY: it is accepted, or refused by name (10_state.md R23). -/
def presentRequest (r : Request) (s : State) : Host.Outcome State Fault Refusal :=
  match decodeReq r with
  | .ok i => exec i s
  | .error e => .refused (refuseRequest r e)

/-- READY takes the next host action; with none left it holds every line and waits (10_state.md R21, R23; 60_exceptions.md
R223). -/
def takeHostAction (s : State) : Host.Outcome State Fault Refusal :=
  match s.host with
  | [] => .next s
  | .idle d :: rest => .next (idle d { s with host := rest })
  | .req r :: rest => presentRequest r { s with host := rest }

/-- WAKE and BUSY perform the head action; an empty `seq` is a completed operation (R26, R27). -/
def runSequence (s : State) : Host.Outcome State Fault Refusal :=
  match s.seq with
  | [] => .next { s with phase := .ready }
  | it :: _ => perform it s

/-- One step of a run with no reset due and a launched configuration. -/
def runPhase (s : State) : Host.Outcome State Fault Refusal :=
  match s.phase with
  | .ready => takeHostAction s
  | .wake | .busy => runSequence s

/-- The state in which a request word, with empty texts, is what the next step accepts: READY, no operation running, the
request first in the host program, no reset scheduled (log entry 3). -/
def placeRequest (w : ReqWord) (s : State) : State :=
  { s with phase := .ready, seq := [], host := .req ⟨w, [], []⟩ :: s.host, resets := [] }

/-- The state in which a byte is what the controller takes at the next step: the byte on the storage outputs, RS with it, E
high, and the rest of the transfer (its fall of E and settle) to be performed (log entry 10). -/
def placeBusByte (x : Byte) (s : State) : State :=
  { s with
    phase := .busy
    pins := { s.pins with e := true, rw := false, rs := tableRs x }
    q := Stages.ofByte x
    seq := [⟨.set .e false, rawNeed s.config (tableRs x) x⟩, hold s.config.tS]
    resets := [] }

end Sys2Proof.Machine
end

