-- ==== Sys2Proof/Machine/Step.lean ====
section
/-! DEFINITION. One step of the machine: the launch check, which comes before reset release (60_exceptions.md R204), then a
reset, which wins over everything in a run that has started (R208), then the run; and the placing of one table word where
the next step reads it. -/

namespace Sys2Proof.Machine

/-- One step (R20, R204, R208; log entry 14). -/
def step (s : State) : Host.Outcome State Fault Refusal :=
  match launchViolation s with
  | some p => .refused (.badConfiguration p)
  | none =>
    match resetDue s with
    | some t => takeReset t s
    | none => runPhase s

/-- s with a table word placed so that the very next step runs it: a sixteen-bit row as the request presented in READY, an
eight-bit row as the byte on the bus at a falling edge of E (log entries 3 and 10). -/
def State.withFetchWord (s : State) (nbits w : Nat) : State :=
  if nbits = 16 then placeRequest (BitVec.ofNat 16 w) s
  else if nbits = 8 then placeBusByte (BitVec.ofNat 8 w) s
  else s

end Sys2Proof.Machine
end

