-- ==== Sys2Proof/Machine/Observe.lean ====
section
/-! DEFINITION. A run and what can be observed of it: its final observation (10_state.md R38), the time of an action and the
pin-level-change trace (00_scope.md R11, R12), the level of a bound line (00_scope.md R7), and the reading of `bus_log` as
controller instructions (30_encoding.md R82). -/

namespace Sys2Proof.Machine

/-- n steps of a run, stopping at the first fault or refusal (R38). -/
def run : Nat → State → Host.Outcome State Fault Refusal
  | 0, s => .next s
  | n + 1, s =>
    match step s with
    | .next t => run n t
    | .fault r => .fault r
    | .refused r => .refused r

/-- The final observation of a run (R38). -/
structure Observation where
  trace : List Action
  busLog : List (Bool × Byte)
  pins : Pins
  q : Stages
  now : Nat
  deriving DecidableEq, Repr

/-- A run has ended: every host action is consumed, READY, and `seq` empty (R38); or `rst` is asserted in READY
(70_reset_and_hazards.md R234). -/
def State.runEnded (s : State) : Bool :=
  s.ready && ((s.host.isEmpty && s.seq.isEmpty) || (resetDue s).isSome)

/-- The final observation, which a run has once it has ended: the state at that instant (R38; 70_reset_and_hazards.md
R234). -/
def State.observation (s : State) : Option Observation :=
  if s.runEnded then some ⟨s.trace, s.busLog, s.pins, s.q, s.now⟩ else none

/-- The sum of the nominal `Wait`s of an action list (R12, 70_reset_and_hazards.md R245). -/
def duration : List Action → Nat
  | [] => 0
  | .wait d :: rest => d + duration rest
  | .set _ _ :: rest => duration rest

/-- The line levels after an action list, from the levels before it (R25). -/
def levelsAfter : Pins → List Action → Pins
  | p, [] => p
  | p, .set l v :: rest => levelsAfter (p.drive l v) rest
  | p, .wait _ :: rest => levelsAfter p rest

/-- The pin-level-change trace: unchanged-level `Set`s removed, each change stamped with the sum of the `Wait`s before it
(R11). -/
def pinChanges (t : Nat) (p : Pins) : List Action → List (Nat × Pin × Bool)
  | [] => []
  | .wait d :: rest => pinChanges (t + d) p rest
  | .set l v :: rest =>
    if p.get l = v then pinChanges t p rest else (t, l, v) :: pinChanges t (p.drive l v) rest

/-- The level of the platform line with this identity, where one of the six lines is bound to it (R7, R25). -/
def lineLevel (s : State) (identity : Nat) : Option Bool :=
  ((boundLines s.config).find? fun b => b.2 == identity).map fun b => s.pins.get b.1

/-- The bus log read by the layouts of R78: none labels a byte `unlisted` (R82). -/
def busInstructions (s : State) : List (Option Instr) := s.busLog.map fun b => decodeBus b.1 b.2

end Sys2Proof.Machine
end

