-- ==== Sys2Proof/Safety.lean ====
section
/-! DEFINITION. What counts as a safe run: quiet lines between operations (70_reset_and_hazards.md R238), no line but E
changing while E is high (R240), no unknown bit sampled (60_exceptions.md R206), the settle obligation kept
(70_reset_and_hazards.md R237); the spec's action lists written out flat (40_shift.md, 41_lcd_transfer.md), apart from the
builders the meanings use; and the state a transfer leaves (41_lcd_transfer.md R120, R125). -/

namespace Sys2Proof.Safety

open Sys2Proof.Machine

/-- SRCLK, RCLK, E and RW are 0 (R238). -/
def quiet (p : Pins) : Bool := !p.srclk && !p.rclk && !p.e && !p.rw

/-- No reset of this run lands up to this time: none is scheduled, or the first one is later. -/
def ResetAfter (s : State) (time : Nat) : Prop := ∀ r, s.resets.head? = some r → time < r

/-- READY with the lines quiet, where R238 puts SRLCD between two operations, and no reset for the next d nanoseconds. -/
def ReadyQuiet (s : State) (d : Nat) : Prop :=
  s.phase = .ready ∧ ResetAfter s (s.now + d) ∧ quiet s.pins = true

/-- The operation of instruction i, accepted in s, runs to its end in u: acceptance answers a next state, and as many steps
as it loaded actions lead to u (10_state.md R27; 20_memory.md R64). -/
def Completes (i : Instr) (s u : State) : Prop := ∃ t, exec i s = .next t ∧ run t.seq.length t = .next u

/-- The constraints of 00_scope.md R8. -/
def ConfigValid (c : Config) : Prop :=
  c.tS ≥ 1 ∧ c.tEn ≥ 1000 ∧ c.tClr ≥ 1500000 ∧ c.tW1 ≥ 10000000 ∧ c.tW3 ≥ 250000 ∧ c.tW1 > c.tW3 ∧
    [c.pinSer, c.pinRclk, c.pinSrclk, c.pinE, c.pinRw, c.pinRs].Nodup

/-- The parameter breaks a constraint of 00_scope.md R8 (60_exceptions.md R201). A constraint on two parameters is broken by
both. -/
def Breaks (c : Config) : Param → Prop
  | .tS => ¬ c.tS ≥ 1
  | .tEn => ¬ c.tEn ≥ 1000
  | .tClr => ¬ c.tClr ≥ 1500000
  | .tW1 => ¬ c.tW1 ≥ 10000000 ∨ ¬ c.tW1 > c.tW3
  | .tW3 => ¬ c.tW3 ≥ 250000 ∨ ¬ c.tW1 > c.tW3
  | .pin p => ∃ p', p' ≠ p ∧ c.identity p' = c.identity p

/-- The line layout and the cursor mask have the defaults of 00_scope.md R7, which 42_lcd_commands.md R148, 43_lcd_text.md R172
and 20_memory.md R51 write as literals. -/
def LinesAtDefault (c : Config) : Prop :=
  c.line1Base = 0x00 ∧ c.line2Base = 0x40 ∧ c.lineVisible = 16 ∧ c.indexMask = 0x0F

/-- The duration of one transfer (R120). -/
def transferTime (c : Config) : Nat := 29 * c.tS + c.tEn

/-- The duration of one character write (R124). -/
def charTime (c : Config) : Nat := transferTime c + c.tChar

/-- The last transfer's settle time has passed at this time (R237). -/
def settledAt (time : Nat) (lastXfer : Option (Nat × Nat)) : Bool :=
  match lastXfer with
  | some (tFall, need) => decide (need ≤ time - tFall)
  | none => true

/-- A transfer started now keeps the settle obligation: E would rise 28 settle times after its start (R237). -/
def TransferSettled (s : State) : Prop := settledAt (s.now + 28 * s.config.tS) s.lastXfer = true

/-- `Set`s and `Wait`s of one shifted bit (R101). -/
def bitActions (c : Config) (b : Bool) : List Action :=
  [.set .ser b, .wait c.tS, .set .srclk true, .wait c.tS, .set .srclk false, .wait c.tS]

/-- `Set`s and `Wait`s of one latch (R103). -/
def latchActions (c : Config) : List Action :=
  [.set .rclk true, .wait c.tS, .set .rclk false, .wait c.tS]

/-- `Set`s and `Wait`s of one shifted byte: bits 7, 6, ..., 0 in that order (R102). -/
def byteActions (c : Config) (x : Byte) : List Action :=
  bitActions c (x.getLsbD 7) ++ bitActions c (x.getLsbD 6) ++ bitActions c (x.getLsbD 5) ++
    bitActions c (x.getLsbD 4) ++ bitActions c (x.getLsbD 3) ++ bitActions c (x.getLsbD 2) ++
    bitActions c (x.getLsbD 1) ++ bitActions c (x.getLsbD 0)

/-- `Set`s and `Wait`s of one transfer: 30 of each (R120). -/
def transferActions (c : Config) (rs : Bool) (x : Byte) : List Action :=
  byteActions c x ++ latchActions c ++
    [.set .rs rs, .wait c.tS, .set .rw false, .wait c.tS, .set .e true, .wait c.tEn, .set .e false, .wait c.tS]

/-- The state that one transfer of x leaves in s, with its settle tag and the waits after it (R120, R121, R125): the lines
SER = x[0], SRCLK = RCLK = E = RW = 0, RS = rs; `sr = q = x`; one entry in `bus_log`; `last_xfer` at the fall of E; time
and trace grown by the transfer and the waits. -/
def afterTransfer (s : State) (rs : Bool) (x : Byte) (need : Nat) (settles : List Nat) : State :=
  { s with
    pins := ⟨x.getLsbD 0, false, false, false, false, rs⟩
    seq := []
    sr := Stages.ofByte x
    q := Stages.ofByte x
    busLog := s.busLog ++ [(rs, x)]
    lastXfer := some (s.now + 28 * s.config.tS + s.config.tEn, need)
    now := s.now + transferTime s.config + settles.sum
    trace := s.trace ++ transferActions s.config rs x ++ settles.map .wait }

/-- The state a named command of byte x with settle time t leaves (R140). -/
def afterCommand (s : State) (x : Byte) (t : Nat) : State := afterTransfer s false x t [t]

/-- The state a character write leaves (R124). -/
def afterChar (s : State) (x : Byte) : State := afterTransfer s true x s.config.tChar [s.config.tChar]

/-- The rest of a sequence, from these line levels and device contents: RW is never driven high, nothing but a fall of E
happens while E is high, E never falls with an unknown bit on the bus, and the lines are quiet at the end (R122, R206, R238,
R240). -/
def safeSeq (p : Pins) (sr q : Stages) : List SeqItem → Bool
  | [] => quiet p
  | ⟨.wait _, _⟩ :: rest => safeSeq p sr q rest
  | ⟨.set l v, _⟩ :: rest =>
    (!decide (l = .rw) || !v) && (!p.e || (decide (l = .e) && !v)) &&
      (!(decide (l = .e) && p.falls l v) || q.byte?.isSome) &&
      safeSeq (p.drive l v) (srAfter p sr l v) (qAfter p sr q l v) rest

/-- READY exactly when nothing is left to perform (10_state.md R26, R27), and what is left is safe. -/
def SafeLines (s : State) : Prop :=
  (s.phase = .ready ↔ s.seq = []) ∧ safeSeq s.pins s.sr s.q s.seq = true

/-- The rest of a sequence, from this time, this last transfer and these levels, keeps the settle obligation at every
`Set(E, 1)` and is settled at its end (R237). -/
def timedSeq (time : Nat) (last : Option (Nat × Nat)) (p : Pins) : List SeqItem → Bool
  | [] => settledAt time last
  | ⟨.wait d, _⟩ :: rest => timedSeq (time + d) last p rest
  | ⟨.set l v, need⟩ :: rest =>
    (!(decide (l = .e) && v) || settledAt time last) &&
      timedSeq time (if l = .e ∧ p.falls l v then some (time, need) else last) (p.drive l v) rest

/-- READY exactly when nothing is left to perform, and what is left keeps the settle obligation (R237). -/
def SafeTiming (s : State) : Prop :=
  (s.phase = .ready ↔ s.seq = []) ∧ timedSeq s.now s.lastXfer s.pins s.seq = true

/-- A host action other than a raw COMMAND: an idle, or a request that is refused or names another operation. -/
def notCommand : HostAction → Bool
  | .idle _ => true
  | .req r =>
    match decodeReq r with
    | .ok (.command _) => false
    | _ => true

end Sys2Proof.Safety
end

