-- ==== Sys2Proof/Certificates/Slice0/Obligations.lean ====
section
/-! DEFINITION. The statements for the provers. Each docstring names the rule of spec/ it formalises. -/

open Sys2Proof Sys2Proof.Machine Sys2Proof.Safety

/-! ### Encoding -/

/-- The words of every instruction decode to it, every operand at every value (30_encoding.md R71 to R73, R78). -/
def Obligations.DecodeOfEncode : Prop := ∀ i : Instr, decode (encode i) = some i

/-- Every code has one meaning: whatever the decoder accepts is the encoding of what it answers (30_encoding.md R72, R74,
R76, R78). -/
def Obligations.EncodeOfDecode : Prop := ∀ (c : Code) (i : Instr), decode c = some i → encode i = c

/-- The decoder, which uses the masks of R77 and R78, accepts exactly the codes that the field lists of R74, R75, R76 and
R82 allow. -/
def Obligations.DecodesExactlyWellFormed : Prop := ∀ c : Code, (decode c).isSome = c.wellFormed

/-- The decoder's three checks come in the order OP, reserved-zero bits, texts (30_encoding.md R77). -/
def Obligations.RefusalOrder : Prop :=
  ∀ r : Request,
    (r.opListed = false → decodeReq r = .error .reservedOpcode) ∧
    (r.opListed = true → r.reservedZero = false → decodeReq r = .error .reservedField) ∧
    (r.opListed = true → r.reservedZero = true → r.textsFit = false → decodeReq r = .error .textOperand) ∧
    (r.opListed = true → r.reservedZero = true → r.textsFit = true → ∃ i, decodeReq r = .ok i)

/-- Words the spec writes out decode to the operations it says (30_encoding.md R83; 95_test_vectors.md). -/
def Obligations.WrittenWordsDecode : Prop :=
  decodeReq ⟨0x0801, [], []⟩ = .ok (.shiftbit true) ∧
  decodeReq ⟨0x10A5, [], []⟩ = .ok (.shiftbyte 0xA5) ∧
  decodeReq ⟨0x6700, [], []⟩ = .ok (.funcset true true true) ∧
  decodeReq ⟨0x8905, [], []⟩ = .ok (.setcursor true 0x05) ∧
  decodeReq ⟨0xA000, [0x48, 0x49], [0x42, 0x59, 0x45]⟩ = .ok (.writemsg [0x48, 0x49] [0x42, 0x59, 0x45]) ∧
  decodeBus false 0x3C = some (.lcdFunctionSet true true) ∧
  decodeBus false 0xC0 = some (.lcdDdramAddressSet 0x40) ∧
  decodeBus true 0x41 = some (.lcdData 0x41)

/-! ### A step -/

/-- In READY, with no reset due, a presented request that decodes to i makes the step exec of i, the request taken from the
host program (10_state.md R23, R26, R27). -/
def Obligations.StepRunsPresentedRequest : Prop :=
  ∀ (s : State) (r : Request) (rest : List HostAction) (i : Instr),
    s.phase = .ready → resetDue s = none → s.host = .req r :: rest → decodeReq r = .ok i →
    step s = exec i { s with host := rest }

/-- At a falling edge of E, with no reset due and the launch check passed, a byte on the bus that decodes to i makes the step
exec of i, after E is lowered, the action retired and `last_xfer` set to this time and the transfer's tag (60_exceptions.md
R218; 41_lcd_transfer.md R121). -/
def Obligations.StepRunsSampledByte : Prop :=
  ∀ (s : State) (need : Nat) (rest : List SeqItem) (x : Byte) (i : Instr),
    s.phase ≠ .ready → resetDue s = none → launchViolation s = none →
    s.seq = ⟨.set .e false, need⟩ :: rest → s.pins.e = true → s.q.byte? = some x →
    decodeBus s.pins.rs x = some i →
    step s = exec i { s with
      pins := { s.pins with e := false }
      seq := rest
      phase := if rest.isEmpty then .ready else s.phase
      trace := s.trace ++ [.set .e false]
      lastXfer := some (s.now, need) }

/-- In WAKE or BUSY a step performs the head action and drops it: a wait adds its time; a line is driven, a rise of SRCLK
shifts, a rise of RCLK latches, and READY follows the last action (10_state.md R25 to R28; 20_memory.md R63). A reset may be
scheduled as long as it is not due. The two edges of E have statements of their own, TimingFaultAtEnableRise and
StepRunsSampledByte. -/
def Obligations.StepPerformsTheHeadAction : Prop :=
  ∀ (s : State) (need : Nat) (rest : List SeqItem),
    s.phase ≠ .ready → resetDue s = none → launchViolation s = none →
    (∀ d, s.seq = ⟨.wait d, need⟩ :: rest → step s = .next { s with
      seq := rest
      phase := if rest = [] then .ready else s.phase
      now := s.now + d
      trace := s.trace ++ [.wait d] }) ∧
    (∀ p v, s.seq = ⟨.set p v, need⟩ :: rest → p ≠ .e ∨ (v = false ∧ s.pins.e = false) → step s = .next { s with
      seq := rest
      phase := if rest = [] then .ready else s.phase
      pins := s.pins.drive p v
      sr := if p = .srclk ∧ v = true ∧ s.pins.srclk = false then
          ⟨s.sr.s6, s.sr.s5, s.sr.s4, s.sr.s3, s.sr.s2, s.sr.s1, s.sr.s0, if s.pins.ser then .one else .zero⟩
        else s.sr
      q := if p = .rclk ∧ v = true ∧ s.pins.rclk = false then s.sr else s.q
      trace := s.trace ++ [.set p v] })

/-- Accepting any request in READY loads a list of actions and sets BUSY, or completes at once where the list is empty;
everything else of the state is unchanged (10_state.md R26, R27). -/
def Obligations.AcceptanceFrame : Prop :=
  ∀ (i : Instr) (r : Request) (s : State), encode i = .req r → s.phase = .ready →
    ∃ items, exec i s = .next { s with seq := items, phase := if items = [] then .ready else .busy }

/-- While `ready = 0` a request is held: exec of any request leaves the state as it is, and no step takes an action from the
host program (10_state.md R23; 70_reset_and_hazards.md R241). -/
def Obligations.RequestsAreHeldUntilReady : Prop :=
  (∀ (i : Instr) (r : Request) (s : State), encode i = .req r → s.phase ≠ .ready → exec i s = .next s) ∧
    (∀ s t : State, s.phase ≠ .ready → step s = .next t → t.host = s.host)

/-- A request with a reserved operation code is refused by name, with its word (30_encoding.md R75). -/
def Obligations.ReservedOpcodeRefused : Prop :=
  ∀ (s : State) (r : Request) (rest : List HostAction),
    s.phase = .ready → resetDue s = none → s.host = .req r :: rest →
    (r.word.toNat / 2048 = 0x00 ∨ r.word.toNat / 2048 = 0x06 ∨ r.word.toNat / 2048 = 0x07 ∨
      (0x15 ≤ r.word.toNat / 2048 ∧ r.word.toNat / 2048 ≤ 0x1F)) →
    step s = .refused (.reservedOpcode r.word)

/-- A request of a listed operation code with a 1 in a reserved-zero bit is refused by name, with its word
(30_encoding.md R74). -/
def Obligations.ReservedFieldRefused : Prop :=
  ∀ (s : State) (r : Request) (rest : List HostAction),
    s.phase = .ready → resetDue s = none → s.host = .req r :: rest → r.opListed = true → r.reservedZero = false →
    step s = .refused (.reservedField r.word)

/-- A request with a text its operation does not use is refused by name, with its word and the lengths of both texts, when
its operation code and reserved bits pass (30_encoding.md R76; 60_exceptions.md R201). -/
def Obligations.TextOperandRefused : Prop :=
  ∀ (s : State) (r : Request) (rest : List HostAction),
    s.phase = .ready → resetDue s = none → s.host = .req r :: rest →
    r.opListed = true → r.reservedZero = true → r.textsFit = false →
    step s = .refused (.textOperand r.word r.text1.length r.text2.length)

/-- A step refuses only for a reset whose time has come outside READY, for a configuration at launch whose named parameter
breaks a constraint, or for a request the decoder refuses (60_exceptions.md R201, R208). -/
def Obligations.RefusalsHaveTheirCauses : Prop :=
  ∀ (s : State) (r : Refusal), step s = .refused r →
    (∃ t later, s.resets = t :: later ∧ s.phase ≠ .ready ∧ r = .resetDuringOperation t ∧
      (t ≤ s.now ∨ ∃ d need rest, s.seq = ⟨.wait d, need⟩ :: rest ∧ t < s.now + d)) ∨
    (∃ p, s.phase = .wake ∧ s.trace = [] ∧ ¬ ConfigValid s.config ∧ Breaks s.config p ∧ r = .badConfiguration p) ∨
    (∃ req rest, s.phase = .ready ∧ s.host = .req req :: rest ∧
      ((decodeReq req = .error .reservedOpcode ∧ r = .reservedOpcode req.word) ∨
        (decodeReq req = .error .reservedField ∧ r = .reservedField req.word) ∨
        (decodeReq req = .error .textOperand ∧ r = .textOperand req.word req.text1.length req.text2.length)))

/-- `Idle(d)` in READY that no reset cuts short, one at its very end among them: d nanoseconds pass, one `Wait(d)` enters the
trace, every line is held (10_state.md R21). -/
def Obligations.IdleLetsTimePass : Prop :=
  ∀ (s : State) (d : Nat) (rest : List HostAction), s.phase = .ready → resetDue s = none →
    (∀ r, s.resets.head? = some r → s.now + d ≤ r) → s.host = .idle d :: rest →
    step s = .next { s with host := rest, now := s.now + d, trace := s.trace ++ [.wait d] }

/-- An idle that the next reset cuts: it lasts until the reset, and the step after it starts the new run
(70_reset_and_hazards.md R234). Which of the idle is performed is the model's choice (log entry 5), and so is that the rest
of the host program and the later resets stay presented to the new run (log entry 4). -/
def Obligations.ResetCutsAnIdle : Prop :=
  ∀ (s : State) (d t : Nat) (rest : List HostAction) (later : List Nat),
    s.phase = .ready → s.host = .idle d :: rest → s.resets = t :: later → s.now < t → t < s.now + d →
    ∃ u, step s = .next u ∧ u = { s with host := rest, now := t, trace := s.trace ++ [.wait (t - s.now)] } ∧
      u.observation = some ⟨s.trace ++ [.wait (t - s.now)], s.busLog, s.pins, s.q, t⟩ ∧
      step u = .next { u with
        pins := ⟨false, false, false, false, false, false⟩, phase := .wake, seq := wakeSeq s.config, lastXfer := none,
        now := 0, trace := [], resets := later }

/-- READY with no request presented waits: the step changes nothing (60_exceptions.md R223). -/
def Obligations.ReadyWaits : Prop :=
  ∀ s : State, s.phase = .ready → resetDue s = none → s.host = [] → step s = .next s

/-! ### The shift layer -/

/-- SHIFTBIT (40_shift.md R101): its word; `sr <- {sr[6:0], b}`, SER = b, q and everything else as before, 3·T_S. -/
def Obligations.ShiftbitCompletes : Prop :=
  ∀ (b : Bool) (s : State), ReadyQuiet s (3 * s.config.tS) →
    encode (.shiftbit b) = .req ⟨if b then 0x0801 else 0x0800, [], []⟩ ∧
    Completes (.shiftbit b) s { s with
      seq := []
      pins := { s.pins with ser := b }
      sr := ⟨s.sr.s6, s.sr.s5, s.sr.s4, s.sr.s3, s.sr.s2, s.sr.s1, s.sr.s0, if b then .one else .zero⟩
      now := s.now + 3 * s.config.tS
      trace := s.trace ++ bitActions s.config b }

/-- SHIFTBYTE (40_shift.md R102): its word; eight bits most significant first; `sr[i] = x[i]`, SER = x[0], q and everything
else as before, 24·T_S. -/
def Obligations.ShiftbyteCompletes : Prop :=
  ∀ (x : Byte) (s : State), ReadyQuiet s (24 * s.config.tS) →
    encode (.shiftbyte x) = .req ⟨0x1000 ||| x.setWidth 16, [], []⟩ ∧
    Completes (.shiftbyte x) s { s with
      seq := []
      pins := { s.pins with ser := x.getLsbD 0 }
      sr := Stages.ofByte x
      now := s.now + 24 * s.config.tS
      trace := s.trace ++ byteActions s.config x }

/-- LATCH (40_shift.md R103): its word; `q <- sr`, sr and everything else as before, 2·T_S. -/
def Obligations.LatchCompletes : Prop :=
  ∀ s : State, ReadyQuiet s (2 * s.config.tS) →
    encode .latch = .req ⟨0x1800, [], []⟩ ∧
    Completes .latch s { s with
      seq := []
      q := s.sr
      now := s.now + 2 * s.config.tS
      trace := s.trace ++ latchActions s.config }

/-- PUTBIT (40_shift.md R104): its word; one shift and then a latch, 5·T_S. -/
def Obligations.PutbitCompletes : Prop :=
  ∀ (b : Bool) (s : State), ReadyQuiet s (5 * s.config.tS) →
    encode (.putbit b) = .req ⟨if b then 0x2001 else 0x2000, [], []⟩ ∧
    Completes (.putbit b) s { s with
      seq := []
      pins := { s.pins with ser := b }
      sr := ⟨s.sr.s6, s.sr.s5, s.sr.s4, s.sr.s3, s.sr.s2, s.sr.s1, s.sr.s0, if b then .one else .zero⟩
      q := ⟨s.sr.s6, s.sr.s5, s.sr.s4, s.sr.s3, s.sr.s2, s.sr.s1, s.sr.s0, if b then .one else .zero⟩
      now := s.now + 5 * s.config.tS
      trace := s.trace ++ bitActions s.config b ++ latchActions s.config }

/-- PUTBYTE (40_shift.md R105): its word; eight shifts and then one latch, `sr = q = x`, 26·T_S. -/
def Obligations.PutbyteCompletes : Prop :=
  ∀ (x : Byte) (s : State), ReadyQuiet s (26 * s.config.tS) →
    encode (.putbyte x) = .req ⟨0x2800 ||| x.setWidth 16, [], []⟩ ∧
    Completes (.putbyte x) s { s with
      seq := []
      pins := { s.pins with ser := x.getLsbD 0 }
      sr := Stages.ofByte x
      q := Stages.ofByte x
      now := s.now + 26 * s.config.tS
      trace := s.trace ++ byteActions s.config x ++ latchActions s.config }

/-! ### Transfers, commands and texts -/

/-- COMMAND (41_lcd_transfer.md R123): its word; one transfer of x with RS = 0, no settle of its own, the tag by the table of
30_encoding.md R81. -/
def Obligations.CommandCompletes : Prop :=
  ∀ (x : Byte) (s : State), ReadyQuiet s (transferTime s.config) → TransferSettled s →
    encode (.command x) = .req ⟨0x4000 ||| x.setWidth 16, [], []⟩ ∧
    Completes (.command x) s (afterTransfer s false x
      (if x.toNat ≤ 0x03 then s.config.tClr else if x.toNat ≤ 0x3F then s.config.tSetter else s.config.tAddr) [])

/-- WRITECHAR (41_lcd_transfer.md R124): its word; one transfer of c with RS = 1, then T_CHAR. -/
def Obligations.WritecharCompletes : Prop :=
  ∀ (c : Byte) (s : State), ReadyQuiet s (charTime s.config) → TransferSettled s →
    encode (.writechar c) = .req ⟨0x4800 ||| c.setWidth 16, [], []⟩ ∧
    Completes (.writechar c) s (afterTransfer s true c s.config.tChar [s.config.tChar])

/-- CLEAR and HOME (42_lcd_commands.md R141, R142): their words; the command bytes 0x01 and 0x02, then T_CLR. -/
def Obligations.ClearAndHomeComplete : Prop :=
  ∀ s : State, ReadyQuiet s (transferTime s.config + s.config.tClr) → TransferSettled s →
    (encode .clear = .req ⟨0x5000, [], []⟩ ∧ Completes .clear s (afterCommand s 0x01 s.config.tClr)) ∧
    (encode .home = .req ⟨0x5800, [], []⟩ ∧ Completes .home s (afterCommand s 0x02 s.config.tClr))

/-- FUNCSET (42_lcd_commands.md R143): its word; the byte 0x30, 0x34, 0x38 or 0x3C by n and s whatever e is, then
T_SETTER. -/
def Obligations.FuncsetCompletes : Prop :=
  ∀ (e n sm : Bool) (s : State), ReadyQuiet s (transferTime s.config + s.config.tSetter) → TransferSettled s →
    encode (.funcset e n sm) =
      .req ⟨0x6000 ||| (if e then 0x400 else 0) ||| (if n then 0x200 else 0) ||| (if sm then 0x100 else 0), [], []⟩ ∧
    Completes (.funcset e n sm) s (afterCommand s
      (if n then if sm then 0x3C else 0x38 else if sm then 0x34 else 0x30) s.config.tSetter)

/-- DISPSET (42_lcd_commands.md R144): its word; the byte `00001dck`, then T_SETTER. -/
def Obligations.DispsetCompletes : Prop :=
  ∀ (d c k : Bool) (s : State), ReadyQuiet s (transferTime s.config + s.config.tSetter) → TransferSettled s →
    encode (.dispset d c k) =
      .req ⟨0x6800 ||| (if d then 0x400 else 0) ||| (if c then 0x200 else 0) ||| (if k then 0x100 else 0), [], []⟩ ∧
    Completes (.dispset d c k) s (afterCommand s
      (0x08 ||| (if d then 0x04 else 0) ||| (if c then 0x02 else 0) ||| (if k then 0x01 else 0)) s.config.tSetter)

/-- ENTRYSET (42_lcd_commands.md R145): its word; the byte `000001ih`, then T_SETTER. -/
def Obligations.EntrysetCompletes : Prop :=
  ∀ (i h : Bool) (s : State), ReadyQuiet s (transferTime s.config + s.config.tSetter) → TransferSettled s →
    encode (.entryset i h) = .req ⟨0x7000 ||| (if i then 0x200 else 0) ||| (if h then 0x100 else 0), [], []⟩ ∧
    Completes (.entryset i h) s (afterCommand s
      (0x04 ||| (if i then 0x02 else 0) ||| (if h then 0x01 else 0)) s.config.tSetter)

/-- SETDDRAM (42_lcd_commands.md R146): its word; the byte `0x80 | a`, then T_ADDR. -/
def Obligations.SetddramCompletes : Prop :=
  ∀ (a : BitVec 7) (s : State), ReadyQuiet s (transferTime s.config + s.config.tAddr) → TransferSettled s →
    encode (.setddram a) = .req ⟨0x7800 ||| a.setWidth 16, [], []⟩ ∧
    Completes (.setddram a) s (afterCommand s (0x80 ||| a.setWidth 8) s.config.tAddr)

/-- SETCGRAM (42_lcd_commands.md R147): its word; the byte `0x40 | a`, then T_ADDR. -/
def Obligations.SetcgramCompletes : Prop :=
  ∀ (a : BitVec 6) (s : State), ReadyQuiet s (transferTime s.config + s.config.tAddr) → TransferSettled s →
    encode (.setcgram a) = .req ⟨0x8000 ||| a.setWidth 16, [], []⟩ ∧
    Completes (.setcgram a) s (afterCommand s (0x40 ||| a.setWidth 8) s.config.tAddr)

/-- SETCURSOR (42_lcd_commands.md R148): its word; with the line layout of the spec, the byte `0x80 | (idx & 0x0F)`, with 0x40
ORed in for line 2, then T_ADDR. The clause before it, for every INDEX_MASK, LINE1_BASE and LINE2_BASE (00_scope.md R7), is
the model's reading of R148's literals as these parameters (log entry 20, DEDUCED): R148 writes the defaults only. -/
def Obligations.SetcursorCompletes : Prop :=
  ∀ (l : Bool) (idx : Byte) (s : State), ReadyQuiet s (transferTime s.config + s.config.tAddr) → TransferSettled s →
    encode (.setcursor l idx) = .req ⟨0x8800 ||| (if l then 0x100 else 0) ||| idx.setWidth 16, [], []⟩ ∧
    Completes (.setcursor l idx) s (afterCommand s
      (0x80 ||| ((if l then s.config.line2Base else s.config.line1Base) |||
        (idx &&& s.config.indexMask).setWidth 7).setWidth 8) s.config.tAddr) ∧
    (LinesAtDefault s.config → Completes (.setcursor l idx) s (afterCommand s
      (0x80 ||| (if l then 0x40 else 0) ||| (idx &&& 0x0F)) s.config.tAddr))

/-- DEFAULTSETUP (42_lcd_commands.md R149): its word; 0x3C, 0x0F and 0x06 in that order, each followed by T_SETTER. -/
def Obligations.DefaultsetupCompletes : Prop :=
  ∀ s : State, ReadyQuiet s (3 * (transferTime s.config + s.config.tSetter)) → TransferSettled s →
    encode .defaultsetup = .req ⟨0x9000, [], []⟩ ∧
    Completes .defaultsetup s
      (afterCommand (afterCommand (afterCommand s 0x3C s.config.tSetter) 0x0F s.config.tSetter) 0x06
        s.config.tSetter)

/-- WRITESTR (43_lcd_text.md R171): its word and text; every byte of the text as a character write, in order, 0x00 among
them, of any length. An empty text completes at acceptance, whatever the settle, the lines and the resets, and changes
nothing but an empty `seq`. -/
def Obligations.WritestrCompletes : Prop :=
  (∀ (t : Text) (s : State), ReadyQuiet s (t.length * charTime s.config) → TransferSettled s →
    encode (.writestr t) = .req ⟨0x9800, t, []⟩ ∧
    Completes (.writestr t) s (t.foldl afterChar { s with seq := [] })) ∧
  (∀ s : State, s.phase = .ready →
    exec (.writestr []) s = .next { s with seq := [] } ∧ Completes (.writestr []) s { s with seq := [] })

/-- WRITEMSG (43_lcd_text.md R172): its word and texts; line 1, always one DDRAM address set of line 2's base, 0xC0 with the
line layout of the spec, with T_ADDR, line 2. The clause for every LINE2_BASE (00_scope.md R7) is the model's reading of
R172's literal 0x40 as this parameter (log entry 20, DEDUCED): R172 writes the default only. -/
def Obligations.WritemsgCompletes : Prop :=
  ∀ (t1 t2 : Text) (s : State),
    ReadyQuiet s ((t1.length + t2.length) * charTime s.config + (transferTime s.config + s.config.tAddr)) →
    TransferSettled s →
    encode (.writemsg t1 t2) = .req ⟨0xA000, t1, t2⟩ ∧
    Completes (.writemsg t1 t2) s
      (t2.foldl afterChar (afterCommand (t1.foldl afterChar s) (0x80 ||| s.config.line2Base.setWidth 8) s.config.tAddr)) ∧
    (LinesAtDefault s.config → Completes (.writemsg t1 t2) s
      (t2.foldl afterChar (afterCommand (t1.foldl afterChar s) 0xC0 s.config.tAddr)))

/-- The compositions of 30_encoding.md R84: PUTBIT is SHIFTBIT then LATCH, PUTBYTE is SHIFTBYTE then LATCH, SETCURSOR is
SETDDRAM with a computed address, DEFAULTSETUP is three setters, WRITEMSG is two WRITESTRs around SETDDRAM of line 2's base
(0x40 at the default). That the literals 0x0F, 0x00 and 0x40 of R84, R148 and R172 are INDEX_MASK, LINE1_BASE and LINE2_BASE
(00_scope.md R7) in every configuration is the model's reading (log entry 20, DEDUCED). -/
def Obligations.CompositionsAreSequences : Prop :=
  ∀ s u : State,
    (∀ b, ReadyQuiet s (5 * s.config.tS) →
      (Completes (.putbit b) s u ↔ ∃ m, Completes (.shiftbit b) s m ∧ Completes .latch m u)) ∧
    (∀ x, ReadyQuiet s (26 * s.config.tS) →
      (Completes (.putbyte x) s u ↔ ∃ m, Completes (.shiftbyte x) s m ∧ Completes .latch m u)) ∧
    (∀ l idx, Completes (.setcursor l idx) s u ↔ Completes (.setddram
      ((if l then s.config.line2Base else s.config.line1Base) ||| (idx &&& s.config.indexMask).setWidth 7)) s u) ∧
    (ReadyQuiet s (3 * (transferTime s.config + s.config.tSetter)) → TransferSettled s →
      (Completes .defaultsetup s u ↔ ∃ m1 m2, Completes (.funcset true true true) s m1 ∧
        Completes (.dispset true true true) m1 m2 ∧ Completes (.entryset true false) m2 u)) ∧
    (∀ t1 t2, ReadyQuiet s ((t1.length + t2.length) * charTime s.config + (transferTime s.config + s.config.tAddr)) →
      TransferSettled s →
      (Completes (.writemsg t1 t2) s u ↔ ∃ m1 m2, Completes (.writestr t1) s m1 ∧
        Completes (.setddram s.config.line2Base) m1 m2 ∧ Completes (.writestr t2) m2 u))

/-- What WRITESTR leaves: one data entry per byte of its text, first byte first, nothing else, after exactly the time of
that many character writes (43_lcd_text.md R170, R171). -/
def Obligations.TextIsLoggedInOrder : Prop :=
  ∀ (t : Text) (s u : State), ReadyQuiet s (t.length * charTime s.config) → TransferSettled s →
    Completes (.writestr t) s u →
    u.busLog = s.busLog ++ t.map (fun x => (true, x)) ∧
    u.now = s.now + t.length * (29 * s.config.tS + s.config.tEn + s.config.tChar)

/-- With the line layout of the spec, SETCURSOR reaches only the two visible windows, and every cell of them
(42_lcd_commands.md R148; 20_memory.md R51). That these rules' literals are parameters is log entry 20 (DEDUCED). -/
def Obligations.CursorReachesExactlyTheVisibleCells : Prop :=
  ∀ c : Config, LinesAtDefault c → ∀ a : BitVec 7, (∃ l idx, cursorAddr c l idx = a) ↔ ddramVisible c a = true

/-! ### What the controller takes -/

/-- Each of the eight controller rows (LCD_CLEAR, LCD_HOME, LCD_ENTRY_MODE_SET, LCD_DISPLAY_SET, LCD_FUNCTION_SET,
LCD_CGRAM_ADDRESS_SET, LCD_DDRAM_ADDRESS_SET, LCD_DATA) completes from every state: its own (RS, byte) pair is appended to
`bus_log`, and nothing else changes (60_exceptions.md R218, R220; 10_state.md R33). -/
def Obligations.BusBytesAreTaken : Prop :=
  ∀ (i : Instr) (rs : Bool) (x : Byte) (s : State), encode i = .bus rs x →
    exec i s = .next { s with busLog := s.busLog ++ [(rs, x)] }

/-- The controller rows one by one, with the bytes of 30_encoding.md R78 written out. -/
def Obligations.BusBytesByLayout : Prop :=
  ∀ s : State,
    exec .lcdClear s = .next { s with busLog := s.busLog ++ [(false, 0x01)] } ∧
    exec .lcdHome s = .next { s with busLog := s.busLog ++ [(false, 0x02)] } ∧
    (∀ i h, exec (.lcdEntryModeSet i h) s = .next { s with busLog := s.busLog ++
      [(false, 0x04 ||| (if i then 0x02 else 0) ||| (if h then 0x01 else 0))] }) ∧
    (∀ d c k, exec (.lcdDisplaySet d c k) s = .next { s with busLog := s.busLog ++
      [(false, 0x08 ||| (if d then 0x04 else 0) ||| (if c then 0x02 else 0) ||| (if k then 0x01 else 0))] }) ∧
    (∀ n sm, exec (.lcdFunctionSet n sm) s = .next { s with busLog := s.busLog ++
      [(false, 0x30 ||| (if n then 0x08 else 0) ||| (if sm then 0x04 else 0))] }) ∧
    (∀ a, exec (.lcdCgramAddressSet a) s = .next { s with busLog := s.busLog ++ [(false, 0x40 ||| a.setWidth 8)] }) ∧
    (∀ a, exec (.lcdDdramAddressSet a) s = .next { s with busLog := s.busLog ++ [(false, 0x80 ||| a.setWidth 8)] }) ∧
    (∀ x, exec (.lcdData x) s = .next { s with busLog := s.busLog ++ [(true, x)] })

/-- The bus log changes at a falling edge of E and nowhere else, and then by the pair (RS, q) (60_exceptions.md R218, R219;
10_state.md R33). A step that starts a new run is left to the statements about reset. -/
def Obligations.BusLogGrowsOnlyAtAFallOfE : Prop :=
  ∀ s t : State, resetDue s = none → step s = .next t →
    (s.pins.e = true ∧ t.pins.e = false ∧ ∃ x, s.q = Stages.ofByte x ∧ t.busLog = s.busLog ++ [(s.pins.rs, x)]) ∨
    (¬(s.pins.e = true ∧ t.pins.e = false) ∧ t.busLog = s.busLog)

/-! ### The shift register -/

/-- In every step the shift stages move exactly when SRCLK rises, and then by one place with SER at the bottom
(60_exceptions.md R214). -/
def Obligations.StagesShiftExactlyOnSrclkRise : Prop :=
  ∀ s t : State, step s = .next t →
    t.sr = if s.pins.srclk = false ∧ t.pins.srclk = true then
        ⟨s.sr.s6, s.sr.s5, s.sr.s4, s.sr.s3, s.sr.s2, s.sr.s1, s.sr.s0, if s.pins.ser then .one else .zero⟩
      else s.sr

/-- In every step the storage outputs take the shift stages, all eight together, exactly when RCLK rises (60_exceptions.md
R215). -/
def Obligations.OutputsLatchExactlyOnRclkRise : Prop :=
  ∀ s t : State, step s = .next t →
    t.q = if s.pins.rclk = false ∧ t.pins.rclk = true then s.sr else s.q

/-! ### Faults -/

/-- A `Set(E, 1)` less than the tag's time after the last fall of E is fault 16, with the time, the action's index, the fall
and the need, and the action performed; otherwise the action is performed and the run goes on (60_exceptions.md R205,
R209). That the index counts from 0 is the model's choice (log entry 21). -/
def Obligations.TimingFaultAtEnableRise : Prop :=
  ∀ (s : State) (n : Nat) (rest : List SeqItem),
    s.phase ≠ .ready → resetDue s = none → launchViolation s = none → s.seq = ⟨.set .e true, n⟩ :: rest →
    ∃ t, t = { s with
        pins := { s.pins with e := true }
        seq := rest
        phase := if rest.isEmpty then .ready else s.phase
        trace := s.trace ++ [.set .e true] } ∧
      (∀ tFall need, s.lastXfer = some (tFall, need) → s.now - tFall < need →
        step s = .fault (.lcdTimingViolation s.now s.trace.length tFall need t)) ∧
      ((∀ tFall need, s.lastXfer = some (tFall, need) → need ≤ s.now - tFall) → step s = .next t)

/-- `UnknownBusValue`: a fall of E with a `?` on the bus is fault 17, with no log entry; and no host program, whatever its
requests, configuration and resets, ever reaches it (60_exceptions.md R206). That the index the fault records counts from 0
is the model's choice (log entry 21). -/
def Obligations.UnknownBusValueIsNeverReached : Prop :=
  (∀ (s : State) (need : Nat) (rest : List SeqItem),
    s.phase ≠ .ready → resetDue s = none → launchViolation s = none → s.pins.e = true →
    s.seq = ⟨.set .e false, need⟩ :: rest → (∀ x, s.q ≠ Stages.ofByte x) →
    ∃ t, step s = .fault (.unknownBusValue s.now s.trace.length s.q t) ∧ t.busLog = s.busLog ∧ t.pins.e = false) ∧
  (∀ (c : Config) (host : List HostAction) (resets : List Nat) (n time index : Nat) (q : Stages) (t : State),
    run n (State.launch c host resets) ≠ .fault (.unknownBusValue time index q t))

/-- A step faults only in WAKE or BUSY, at a `Set(E, 1)` with 16 or at a `Set(E, 0)` with 17, and records the time and the
action's index in the trace (60_exceptions.md R202, R208), which counts from 0: the model's choice (log entry 21). -/
def Obligations.FaultsOnlyAtEnableEdges : Prop :=
  ∀ (s : State) (f : Fault), step s = .fault f → s.phase ≠ .ready ∧
    ((∃ need rest tFall required t, s.seq = ⟨.set .e true, need⟩ :: rest ∧
        s.lastXfer = some (tFall, required) ∧ s.now - tFall < required ∧
        f = .lcdTimingViolation s.now s.trace.length tFall required t) ∨
      (∃ need rest t, s.seq = ⟨.set .e false, need⟩ :: rest ∧ s.pins.e = true ∧
        f = .unknownBusValue s.now s.trace.length s.q t))

/-! ### Reset, wake-up and launch -/

/-- The state at reset release: the values 10_state.md R36 lists, and the parameters' defaults of 00_scope.md R7. The pin
identities and the empty inputs are the model's own (log entries 2, 3 and 4), and this statement does not speak of them. -/
def Obligations.ResetValues : Prop :=
  State.reset.pins = ⟨false, false, false, false, false, false⟩ ∧
  State.reset.phase = .wake ∧
  State.reset.seq = wakeSeq State.reset.config ∧
  State.reset.sr = Stages.unknown ∧
  State.reset.q = Stages.unknown ∧
  State.reset.busLog = [] ∧
  State.reset.lastXfer = none ∧
  State.reset.now = 0 ∧
  State.reset.trace = [] ∧
  State.reset.config.tS = 1000 ∧
  State.reset.config.tEn = 1000 ∧
  State.reset.config.tChar = 50000 ∧
  State.reset.config.tAddr = 100000 ∧
  State.reset.config.tClr = 1700000 ∧
  State.reset.config.tSetter = 100000 ∧
  State.reset.config.tW1 = 10000000 ∧
  State.reset.config.tW3 = 250000 ∧
  State.reset.config.tPor = 0

/-- The wake-up sequence, from any start of a run on a valid configuration: `T_POR` where it is above 0, three transfers of
0x30 with their waits, then READY; no request is taken (70_reset_and_hazards.md R231). -/
def Obligations.WakeUpRunsToReady : Prop :=
  ∀ s : State, ConfigValid s.config → s.pins = Pins.low → s.phase = .wake → s.seq = wakeSeq s.config →
    s.lastXfer = none → s.now = 0 → s.trace = [] →
    ResetAfter s (s.config.tPor + 3 * (29 * s.config.tS + s.config.tEn) + 2 * s.config.tW1 + s.config.tW3) →
    ∃ u, run s.seq.length s = .next u ∧
      u.phase = .ready ∧ u.seq = [] ∧ u.pins = Pins.low ∧ u.sr = Stages.ofByte 0x30 ∧ u.q = Stages.ofByte 0x30 ∧
      u.busLog = s.busLog ++ [(false, 0x30), (false, 0x30), (false, 0x30)] ∧
      u.now = s.config.tPor + 3 * (29 * s.config.tS + s.config.tEn) + 2 * s.config.tW1 + s.config.tW3 ∧
      u.trace = (if s.config.tPor > 0 then [.wait s.config.tPor] else []) ++
        transferActions s.config false 0x30 ++ [.wait s.config.tW1] ++
        transferActions s.config false 0x30 ++ [.wait s.config.tW1] ++
        transferActions s.config false 0x30 ++ [.wait s.config.tW3] ∧
      u.lastXfer = some (u.now - s.config.tW3 - s.config.tS, s.config.tW3) ∧
      u.host = s.host ∧ u.config = s.config ∧ u.resets = s.resets

/-- The state when the wake-up ends, at the defaults, from reset (70_reset_and_hazards.md R232). -/
def Obligations.PostWakeState : Prop :=
  ∃ u, run State.reset.seq.length State.reset = .next u ∧
    u.phase = .ready ∧
    u.pins = ⟨false, false, false, false, false, false⟩ ∧
    u.sr = Stages.ofByte 0x30 ∧ u.q = Stages.ofByte 0x30 ∧
    u.busLog = [(false, 0x30), (false, 0x30), (false, 0x30)] ∧
    u.lastXfer = some (20089000, u.config.tW3) ∧
    u.now = 20340000

/-- `rst` in READY ends the run, whose final observation is the state at that instant, and starts a new one: lines low, WAKE,
the wake-up list; `now`, `trace` and `last_xfer` afresh; `sr`, `q` and `bus_log` carried over (70_reset_and_hazards.md
R230, R234). The host program and the later resets stay presented: the model's choice (log entry 4). -/
def Obligations.ResetInReadyStartsANewRun : Prop :=
  ∀ (s : State) (t : Nat) (later : List Nat), s.phase = .ready → s.resets = t :: later → t ≤ s.now →
    s.observation = some ⟨s.trace, s.busLog, s.pins, s.q, s.now⟩ ∧
    step s = .next
      { config := s.config
        pins := ⟨false, false, false, false, false, false⟩
        phase := .wake
        seq := wakeSeq s.config
        sr := s.sr
        q := s.q
        busLog := s.busLog
        lastXfer := none
        now := 0
        trace := []
        host := s.host
        resets := later }

/-- `rst` in WAKE or BUSY of a run that the launch check lets start, between two actions or inside a wait, is refused with its
time (70_reset_and_hazards.md R235; 60_exceptions.md R201). That a reset is a time in a list is the model's form of the
input (log entry 4), and that the launch check comes before it is log entry 14. -/
def Obligations.ResetDuringOperationRefused : Prop :=
  ∀ (s : State) (t : Nat) (later : List Nat), s.phase ≠ .ready → launchViolation s = none → s.resets = t :: later →
    (t ≤ s.now ∨ ∃ d need rest, s.seq = ⟨.wait d, need⟩ :: rest ∧ t < s.now + d) →
    step s = .refused (.resetDuringOperation t)

/-- At launch, before any action and whatever reset is scheduled, a configuration that breaks a constraint of 00_scope.md R8
is refused by the name of a parameter that breaks one, and one that keeps them all is not (60_exceptions.md R204, R201).
Which parameter is named where several break is the model's choice (log entry 11), and this statement does not say. -/
def Obligations.BadConfigurationRefusedAtLaunch : Prop :=
  ∀ s : State, s.phase = .wake → s.trace = [] →
    (¬ ConfigValid s.config → ∃ p, Breaks s.config p ∧ step s = .refused (.badConfiguration p)) ∧
    (ConfigValid s.config → ∀ p, step s ≠ .refused (.badConfiguration p))

/-! ### Invariants and whole-machine rules -/

/-- Every step keeps the lines safe: READY exactly when nothing is left to perform; SRCLK, RCLK, E and RW quiet then; only E
driven, and only low, while E is high; RW never driven high; E never falling with an unknown bit on the bus
(70_reset_and_hazards.md R238, R240; 41_lcd_transfer.md R122; 60_exceptions.md R206). -/
def Obligations.StepKeepsLinesSafe : Prop :=
  ∀ s t : State, SafeLines s → step s = .next t → SafeLines t

/-- The lines are safe at the start of every run, the reset state's among them (70_reset_and_hazards.md R238). -/
def Obligations.LaunchIsLinesSafe : Prop :=
  SafeLines State.reset ∧ ∀ (c : Config) (host : List HostAction) (resets : List Nat),
    SafeLines (State.launch c host resets)

/-- Whatever the host program, configuration and resets, every READY state of a run has SRCLK = RCLK = E = RW = 0
(70_reset_and_hazards.md R238). -/
def Obligations.ReadyLinesAreQuiet : Prop :=
  ∀ (c : Config) (host : List HostAction) (resets : List Nat) (n : Nat) (t : State),
    run n (State.launch c host resets) = .next t → t.phase = .ready →
    t.pins.srclk = false ∧ t.pins.rclk = false ∧ t.pins.e = false ∧ t.pins.rw = false

/-- While E is 1, a step performs no `Set` but one of E, so RS, RW and DB hold one value through the whole enable pulse
(70_reset_and_hazards.md R240). SafeLines, the premise, is the invariant of StepKeepsLinesSafe. -/
def Obligations.NothingMovesWhileEnabled : Prop :=
  ∀ s t : State, SafeLines s → s.pins.e = true → step s = .next t →
    t.pins.ser = s.pins.ser ∧ t.pins.srclk = s.pins.srclk ∧ t.pins.rclk = s.pins.rclk ∧ t.pins.rw = s.pins.rw ∧
      t.pins.rs = s.pins.rs ∧ t.q = s.q ∧ t.sr = s.sr ∧ ∀ p v, t.trace = s.trace ++ [.set p v] → p = .e

/-- Every step keeps the settle obligation but one that accepts a raw COMMAND (READY, no reset due, a COMMAND next in the host
program); a run starts with it kept; and no step from a state that keeps it is fault 16 (70_reset_and_hazards.md R237). -/
def Obligations.NamedOperationsKeepTheSettle : Prop :=
  (∀ s t : State, SafeTiming s →
    (s.phase = .ready → resetDue s = none → ∀ a, s.host.head? = some a → notCommand a = true) →
    step s = .next t → SafeTiming t) ∧
  (∀ (c : Config) (host : List HostAction) (resets : List Nat), SafeTiming (State.launch c host resets)) ∧
  (∀ (s : State) (time index tFall need : Nat) (t : State), SafeTiming s →
    step s ≠ .fault (.lcdTimingViolation time index tFall need t))

/-- Whatever the configuration and resets, a host program with no raw COMMAND never faults, neither with 16 nor with 17
(70_reset_and_hazards.md R237; 60_exceptions.md R205, R206). -/
def Obligations.NamedOperationsNeverFault : Prop :=
  ∀ (c : Config) (host : List HostAction) (resets : List Nat) (n : Nat) (f : Fault),
    host.all notCommand = true → run n (State.launch c host resets) ≠ .fault f

/-- `now` grows only by a `Wait` action or a host `Idle`, and one such step adds exactly what its trace entry says; a `Set`
enters the trace and takes no time; a new run restarts both; `now` and `trace` are 0 and empty at reset release
(10_state.md R35). -/
def Obligations.TimeGrowsOnlyByWaits : Prop :=
  (∀ (c : Config) (host : List HostAction) (resets : List Nat),
    (State.launch c host resets).now = 0 ∧ (State.launch c host resets).trace = []) ∧
  (∀ s t : State, step s = .next t →
    (t.now = s.now ∧ t.trace = s.trace) ∨
    (∃ p v, t.now = s.now ∧ t.trace = s.trace ++ [.set p v]) ∨
    (∃ d, t.now = s.now + d ∧ t.trace = s.trace ++ [.wait d]) ∨
    (s.phase = .ready ∧ t.phase = .wake ∧ t.now = 0 ∧ t.trace = []))

/-- The output registers hold what the `Set`s of the trace put on them, from all lines low, kept by every step
(10_state.md R25). -/
def Obligations.LinesAreWhatTheTraceSet : Prop :=
  ∀ s t : State, s.pins = levelsAfter Pins.low s.trace → step s = .next t → t.pins = levelsAfter Pins.low t.trace

/-- No step changes a parameter (10_state.md R31). -/
def Obligations.NoStepChangesAParameter : Prop := ∀ s t : State, step s = .next t → t.config = s.config
end

