-- ==== Sys2Proof/Laws/Encoding.lean ====
section
/-! SUPPORT. The fields of a request word: packing and reading back, and the rows of opcode_table.json as match and mask,
no two of which overlap. -/

namespace Sys2Proof.Laws

/-- A bit of a packed request word (R71). -/
theorem getLsbD_requestWord (op : BitVec 5) (f : BitVec 3) (a : Byte) (i : Nat) :
    (requestWord op f a).getLsbD i =
      if i < 8 then a.getLsbD i else if i < 11 then f.getLsbD (i - 8) else op.getLsbD (i - 11) := by
  have h : (requestWord op f a).getLsbD i =
      if i < 8 then a.getLsbD i else if i - 8 < 3 then f.getLsbD (i - 8) else op.getLsbD (i - 8 - 3) := by
    unfold requestWord
    erw [BitVec.getLsbD_append, BitVec.getLsbD_append]
  rw [h]
  split
  · rfl
  · split <;> split <;> first | omega | rfl

@[simp] theorem opOf_requestWord (op : BitVec 5) (f : BitVec 3) (a : Byte) : opOf (requestWord op f a) = op := by
  apply BitVec.eq_of_getLsbD_eq
  intro i hi
  rw [opOf, BitVec.getLsbD_extractLsb', getLsbD_requestWord, if_neg (by omega), if_neg (by omega)]
  simp [hi]

@[simp] theorem fOf_requestWord (op : BitVec 5) (f : BitVec 3) (a : Byte) : fOf (requestWord op f a) = f := by
  apply BitVec.eq_of_getLsbD_eq
  intro i hi
  rw [fOf, BitVec.getLsbD_extractLsb', getLsbD_requestWord, if_neg (by omega), if_pos (by omega)]
  simp [hi]

@[simp] theorem aOf_requestWord (op : BitVec 5) (f : BitVec 3) (a : Byte) : aOf (requestWord op f a) = a := by
  apply BitVec.eq_of_getLsbD_eq
  intro i hi
  rw [aOf, BitVec.getLsbD_extractLsb', Nat.zero_add, getLsbD_requestWord, if_pos hi]
  simp [hi]

/-- A request word is its three fields packed (R71). -/
@[simp] theorem requestWord_fields (w : ReqWord) : requestWord (opOf w) (fOf w) (aOf w) = w := by
  apply BitVec.eq_of_getLsbD_eq
  intro i hi
  rw [getLsbD_requestWord]
  simp only [opOf, fOf, aOf, BitVec.getLsbD_extractLsb']
  split
  · simp [*]
  · split
    · rw [decide_eq_true (by omega), Bool.true_and]; congr 1; omega
    · rw [decide_eq_true (by omega), Bool.true_and]; congr 1; omega

/-- The 18 REQ rows of opcode_table.json: match and mask. -/
def requestRows : List (ReqWord × ReqWord) :=
  [(0x0800, 0xFFFE), (0x1000, 0xFF00), (0x1800, 0xFFFF), (0x2000, 0xFFFE), (0x2800, 0xFF00), (0x4000, 0xFF00),
    (0x4800, 0xFF00), (0x5000, 0xFFFF), (0x5800, 0xFFFF)] ++
  [(0x6000, 0xF8FF), (0x6800, 0xF8FF), (0x7000, 0xFCFF), (0x7800, 0xFF80), (0x8000, 0xFFC0), (0x8800, 0xFE00),
    (0x9000, 0xFFFF), (0x9800, 0xFFFF), (0xA000, 0xFFFF)]

/-- The 7 LCD_CMD rows of opcode_table.json: match and mask. -/
def commandRows : List (Byte × Byte) :=
  [(0x01, 0xFF), (0x02, 0xFF), (0x04, 0xFC), (0x08, 0xF8), (0x30, 0xF3), (0x40, 0xC0), (0x80, 0x80)]

/-- No word lies in two request rows: any two differ in a bit both fix. -/
theorem requestRows_disjoint : requestRows.Pairwise fun r r' => r.1 &&& r.2 &&& r'.2 ≠ r'.1 &&& r.2 &&& r'.2 := by
  decide

/-- No byte lies in two command rows. -/
theorem commandRows_disjoint : commandRows.Pairwise fun r r' => r.1 &&& r.2 &&& r'.2 ≠ r'.1 &&& r.2 &&& r'.2 := by
  decide

/-- A byte is decoded as a command exactly when it lies in a command row (R78, R82). -/
theorem decodeBus_isSome_iff_row (x : Byte) :
    (decodeBus false x).isSome = commandRows.any fun r => x &&& r.2 == r.1 := by
  unfold decodeBus commandRows
  split_ifs <;> simp_all

/-- The reserved-zero mask of a row is `mask & 0x07FF` (R77). -/
theorem rzMask_rows : (requestRows.all fun r => rzMask (opOf r.1) == r.2 &&& 0x07FF) = true := by decide

end Sys2Proof.Laws
end

