-- ==== Sys2Proof/Laws/State.lean ====
section
/-! SUPPORT. The update lemmas of State: one per field per named update, each true by rfl, so that no proof unfolds a record
update. -/

namespace Sys2Proof.Laws

open Sys2Proof.Machine

@[simp] theorem busWrite_config (rs : Bool) (x : Byte) (s : State) : (busWrite rs x s).config = s.config := rfl
@[simp] theorem busWrite_pins (rs : Bool) (x : Byte) (s : State) : (busWrite rs x s).pins = s.pins := rfl
@[simp] theorem busWrite_phase (rs : Bool) (x : Byte) (s : State) : (busWrite rs x s).phase = s.phase := rfl
@[simp] theorem busWrite_seq (rs : Bool) (x : Byte) (s : State) : (busWrite rs x s).seq = s.seq := rfl
@[simp] theorem busWrite_sr (rs : Bool) (x : Byte) (s : State) : (busWrite rs x s).sr = s.sr := rfl
@[simp] theorem busWrite_q (rs : Bool) (x : Byte) (s : State) : (busWrite rs x s).q = s.q := rfl
@[simp] theorem busWrite_busLog (rs : Bool) (x : Byte) (s : State) : (busWrite rs x s).busLog = s.busLog ++ [(rs, x)] := rfl
@[simp] theorem busWrite_lastXfer (rs : Bool) (x : Byte) (s : State) : (busWrite rs x s).lastXfer = s.lastXfer := rfl
@[simp] theorem busWrite_now (rs : Bool) (x : Byte) (s : State) : (busWrite rs x s).now = s.now := rfl
@[simp] theorem busWrite_trace (rs : Bool) (x : Byte) (s : State) : (busWrite rs x s).trace = s.trace := rfl
@[simp] theorem busWrite_host (rs : Bool) (x : Byte) (s : State) : (busWrite rs x s).host = s.host := rfl
@[simp] theorem busWrite_resets (rs : Bool) (x : Byte) (s : State) : (busWrite rs x s).resets = s.resets := rfl

@[simp] theorem setPin_config (s : State) (p : Pin) (v : Bool) : (s.setPin p v).config = s.config := rfl
@[simp] theorem setPin_pins (s : State) (p : Pin) (v : Bool) : (s.setPin p v).pins = s.pins.drive p v := rfl
@[simp] theorem setPin_phase (s : State) (p : Pin) (v : Bool) : (s.setPin p v).phase = s.phase := rfl
@[simp] theorem setPin_seq (s : State) (p : Pin) (v : Bool) : (s.setPin p v).seq = s.seq := rfl
@[simp] theorem setPin_sr (s : State) (p : Pin) (v : Bool) : (s.setPin p v).sr = srAfter s.pins s.sr p v := rfl
@[simp] theorem setPin_q (s : State) (p : Pin) (v : Bool) : (s.setPin p v).q = qAfter s.pins s.sr s.q p v := rfl
@[simp] theorem setPin_busLog (s : State) (p : Pin) (v : Bool) : (s.setPin p v).busLog = s.busLog := rfl
@[simp] theorem setPin_lastXfer (s : State) (p : Pin) (v : Bool) : (s.setPin p v).lastXfer = s.lastXfer := rfl
@[simp] theorem setPin_now (s : State) (p : Pin) (v : Bool) : (s.setPin p v).now = s.now := rfl
@[simp] theorem setPin_trace (s : State) (p : Pin) (v : Bool) : (s.setPin p v).trace = s.trace := rfl
@[simp] theorem setPin_host (s : State) (p : Pin) (v : Bool) : (s.setPin p v).host = s.host := rfl
@[simp] theorem setPin_resets (s : State) (p : Pin) (v : Bool) : (s.setPin p v).resets = s.resets := rfl

@[simp] theorem retire_config (s : State) (a : Action) : (s.retire a).config = s.config := rfl
@[simp] theorem retire_pins (s : State) (a : Action) : (s.retire a).pins = s.pins := rfl
@[simp] theorem retire_phase (s : State) (a : Action) : (s.retire a).phase = if s.seq.tail.isEmpty then .ready else s.phase := rfl
@[simp] theorem retire_seq (s : State) (a : Action) : (s.retire a).seq = s.seq.tail := rfl
@[simp] theorem retire_sr (s : State) (a : Action) : (s.retire a).sr = s.sr := rfl
@[simp] theorem retire_q (s : State) (a : Action) : (s.retire a).q = s.q := rfl
@[simp] theorem retire_busLog (s : State) (a : Action) : (s.retire a).busLog = s.busLog := rfl
@[simp] theorem retire_lastXfer (s : State) (a : Action) : (s.retire a).lastXfer = s.lastXfer := rfl
@[simp] theorem retire_now (s : State) (a : Action) : (s.retire a).now = s.now := rfl
@[simp] theorem retire_trace (s : State) (a : Action) : (s.retire a).trace = s.trace ++ [a] := rfl
@[simp] theorem retire_host (s : State) (a : Action) : (s.retire a).host = s.host := rfl
@[simp] theorem retire_resets (s : State) (a : Action) : (s.retire a).resets = s.resets := rfl

@[simp] theorem performWait_config (d : Nat) (s : State) : (performWait d s).config = s.config := rfl
@[simp] theorem performWait_pins (d : Nat) (s : State) : (performWait d s).pins = s.pins := rfl
@[simp] theorem performWait_phase (d : Nat) (s : State) : (performWait d s).phase = if s.seq.tail.isEmpty then .ready else s.phase := rfl
@[simp] theorem performWait_seq (d : Nat) (s : State) : (performWait d s).seq = s.seq.tail := rfl
@[simp] theorem performWait_sr (d : Nat) (s : State) : (performWait d s).sr = s.sr := rfl
@[simp] theorem performWait_q (d : Nat) (s : State) : (performWait d s).q = s.q := rfl
@[simp] theorem performWait_busLog (d : Nat) (s : State) : (performWait d s).busLog = s.busLog := rfl
@[simp] theorem performWait_lastXfer (d : Nat) (s : State) : (performWait d s).lastXfer = s.lastXfer := rfl
@[simp] theorem performWait_now (d : Nat) (s : State) : (performWait d s).now = s.now + d := rfl
@[simp] theorem performWait_trace (d : Nat) (s : State) : (performWait d s).trace = s.trace ++ [.wait d] := rfl
@[simp] theorem performWait_host (d : Nat) (s : State) : (performWait d s).host = s.host := rfl
@[simp] theorem performWait_resets (d : Nat) (s : State) : (performWait d s).resets = s.resets := rfl

@[simp] theorem fallE_config (s : State) (need : Nat) : (s.fallE need).config = s.config := rfl
@[simp] theorem fallE_pins (s : State) (need : Nat) : (s.fallE need).pins = s.pins.drive .e false := rfl
@[simp] theorem fallE_phase (s : State) (need : Nat) : (s.fallE need).phase = if s.seq.tail.isEmpty then .ready else s.phase := rfl
@[simp] theorem fallE_seq (s : State) (need : Nat) : (s.fallE need).seq = s.seq.tail := rfl
@[simp] theorem fallE_sr (s : State) (need : Nat) : (s.fallE need).sr = s.sr := rfl
@[simp] theorem fallE_q (s : State) (need : Nat) : (s.fallE need).q = s.q := rfl
@[simp] theorem fallE_busLog (s : State) (need : Nat) : (s.fallE need).busLog = s.busLog := rfl
@[simp] theorem fallE_lastXfer (s : State) (need : Nat) : (s.fallE need).lastXfer = some (s.now, need) := rfl
@[simp] theorem fallE_now (s : State) (need : Nat) : (s.fallE need).now = s.now := rfl
@[simp] theorem fallE_trace (s : State) (need : Nat) : (s.fallE need).trace = s.trace ++ [.set .e false] := rfl
@[simp] theorem fallE_host (s : State) (need : Nat) : (s.fallE need).host = s.host := rfl
@[simp] theorem fallE_resets (s : State) (need : Nat) : (s.fallE need).resets = s.resets := rfl

@[simp] theorem idle_config (d : Nat) (s : State) : (idle d s).config = s.config := rfl
@[simp] theorem idle_pins (d : Nat) (s : State) : (idle d s).pins = s.pins := rfl
@[simp] theorem idle_phase (d : Nat) (s : State) : (idle d s).phase = s.phase := rfl
@[simp] theorem idle_seq (d : Nat) (s : State) : (idle d s).seq = s.seq := rfl
@[simp] theorem idle_sr (d : Nat) (s : State) : (idle d s).sr = s.sr := rfl
@[simp] theorem idle_q (d : Nat) (s : State) : (idle d s).q = s.q := rfl
@[simp] theorem idle_busLog (d : Nat) (s : State) : (idle d s).busLog = s.busLog := rfl
@[simp] theorem idle_lastXfer (d : Nat) (s : State) : (idle d s).lastXfer = s.lastXfer := rfl
@[simp] theorem idle_now (d : Nat) (s : State) : (idle d s).now = s.now + idleSpan s d := rfl
@[simp] theorem idle_trace (d : Nat) (s : State) : (idle d s).trace = s.trace ++ [.wait (idleSpan s d)] := rfl
@[simp] theorem idle_host (d : Nat) (s : State) : (idle d s).host = s.host := rfl
@[simp] theorem idle_resets (d : Nat) (s : State) : (idle d s).resets = s.resets := rfl

@[simp] theorem restart_config (s : State) : (restart s).config = s.config := rfl
@[simp] theorem restart_pins (s : State) : (restart s).pins = Pins.low := rfl
@[simp] theorem restart_phase (s : State) : (restart s).phase = .wake := rfl
@[simp] theorem restart_seq (s : State) : (restart s).seq = wakeSeq s.config := rfl
@[simp] theorem restart_sr (s : State) : (restart s).sr = s.sr := rfl
@[simp] theorem restart_q (s : State) : (restart s).q = s.q := rfl
@[simp] theorem restart_busLog (s : State) : (restart s).busLog = s.busLog := rfl
@[simp] theorem restart_lastXfer (s : State) : (restart s).lastXfer = none := rfl
@[simp] theorem restart_now (s : State) : (restart s).now = 0 := rfl
@[simp] theorem restart_trace (s : State) : (restart s).trace = [] := rfl
@[simp] theorem restart_host (s : State) : (restart s).host = s.host := rfl
@[simp] theorem restart_resets (s : State) : (restart s).resets = s.resets.tail := rfl

end Sys2Proof.Laws
end

