-- ==== Sys2Proof/Laws/Ops.lean ====
section
/-! SUPPORT. For each shared operation, one lemma that says everything it can do; what one step and one run can do; and the
device facts (a byte put on the stages reads back, eight shifts load a byte). -/

namespace Sys2Proof.Laws

open Sys2Proof.Machine

/-! ### The widths (00_scope.md R7) -/

@[simp] theorem wData_bits (w : DataWidth) : w.bits = 8 := by cases w; rfl

@[simp] theorem nStages_stages (n : StageCount) : n.stages = 8 := by cases n; rfl

@[simp] theorem ddramAw_bits (w : DdramWidth) : w.bits = 7 := by cases w; rfl

@[simp] theorem cgramAw_bits (w : CgramWidth) : w.bits = 6 := by cases w; rfl

/-! ### Lines and stages -/

@[simp] theorem pins_get_drive_same (t : Pins) (p : Pin) (v : Bool) : (t.drive p v).get p = v := by
  cases p <;> rfl

theorem pins_get_drive_other (t : Pins) (p p' : Pin) (v : Bool) (h : p' ≠ p) : (t.drive p v).get p' = t.get p' := by
  cases p <;> cases p' <;> first | rfl | exact absurd rfl h

@[simp] theorem stage_bit_ofBit (b : Bool) : (Stage.ofBit b).bit? = some b := by cases b <;> rfl

/-- The eight bits of a byte, concatenated, are the byte. -/
theorem byte_of_bits (x : Byte) :
    BitVec.ofBool (x.getLsbD 7) ++ BitVec.ofBool (x.getLsbD 6) ++ BitVec.ofBool (x.getLsbD 5) ++
      BitVec.ofBool (x.getLsbD 4) ++ BitVec.ofBool (x.getLsbD 3) ++ BitVec.ofBool (x.getLsbD 2) ++
      BitVec.ofBool (x.getLsbD 1) ++ BitVec.ofBool (x.getLsbD 0) = x := by
  revert x; decide

/-- A byte put on the stages reads back (R56). -/
@[simp] theorem byte_ofByte (x : Byte) : (Stages.ofByte x).byte? = some x := by
  simp only [Stages.byte?, Stages.ofByte, stage_bit_ofBit, byte_of_bits]

/-- Eight shifts, most significant bit first, load a byte whatever the stages held (R102). -/
theorem shiftIn_eight (x : Byte) (t : Stages) :
    Stages.shiftIn (x.getLsbD 0) (Stages.shiftIn (x.getLsbD 1) (Stages.shiftIn (x.getLsbD 2)
      (Stages.shiftIn (x.getLsbD 3) (Stages.shiftIn (x.getLsbD 4) (Stages.shiftIn (x.getLsbD 5)
        (Stages.shiftIn (x.getLsbD 6) (Stages.shiftIn (x.getLsbD 7) t))))))) = Stages.ofByte x := rfl

/-! ### The shared operations -/

/-- Acceptance answers a next state always; in READY it loads the list, else it leaves everything (R23, R26, R27). -/
theorem accept_next (items : List SeqItem) (s : State) :
    accept items s = .next (if s.phase = .ready then
      { s with seq := items, phase := if items.isEmpty then .ready else .busy } else s) := by
  unfold accept; split <;> rfl

/-- A reset starts a new run in READY and is refused otherwise (R234, R235). -/
theorem takeReset_cases (t : Nat) (s : State) :
    (s.phase = .ready ∧ takeReset t s = .next (restart s)) ∨
      (s.phase ≠ .ready ∧ takeReset t s = .refused (.resetDuringOperation t)) := by
  unfold takeReset; split <;> simp_all

/-- What a request's meaning does to a state: its list is accepted. A byte from the bus: one entry in the log. -/
theorem exec_cases (i : Instr) (s : State) :
    (∃ items, exec i s = accept items s) ∨ (∃ rs x, exec i s = .next (busWrite rs x s)) := by
  cases i <;> first | exact .inl ⟨_, rfl⟩ | exact .inr ⟨_, _, rfl⟩

/-- A meaning always answers a next state (60_exceptions.md R200). -/
theorem exec_next (i : Instr) (s : State) : ∃ t, exec i s = .next t := by
  obtain ⟨items, h⟩ | ⟨rs, x, h⟩ := exec_cases i s
  · exact ⟨_, h.trans (accept_next items s)⟩
  · exact ⟨_, h⟩

/-- What the sampling of E can do: a fault with an unknown bit, else the meaning of the byte or its bare log entry. -/
theorem sample_cases (s : State) (need : Nat) :
    (s.q.byte? = none ∧ sample s need = .fault (.unknownBusValue s.now s.trace.length s.q (s.fallE need))) ∨
      (∃ x i, s.q.byte? = some x ∧ decodeBus s.pins.rs x = some i ∧ sample s need = exec i (s.fallE need)) ∨
      (∃ x, s.q.byte? = some x ∧ decodeBus s.pins.rs x = none ∧
        sample s need = .next (busWrite s.pins.rs x (s.fallE need))) := by
  cases h : s.q.byte? with
  | none => exact .inl ⟨rfl, by simp only [sample, State.db, h]⟩
  | some x =>
    cases h' : decodeBus s.pins.rs x with
    | none => exact .inr (.inr ⟨x, rfl, h', by simp only [sample, State.db, h, h']⟩)
    | some i => exact .inr (.inl ⟨x, i, rfl, h', by simp only [sample, State.db, h, h']⟩)

/-- What `Set(p, v)` can do: sample at a fall of E, fault at a breach, else drive the line. -/
theorem performSet_cases (p : Pin) (v : Bool) (need : Nat) (s : State) :
    (p = .e ∧ s.pins.falls p v = true ∧ performSet p v need s = sample s need) ∨
      (¬(p = .e ∧ s.pins.falls p v = true) ∧ p = .e ∧ v = true ∧ ∃ tFall required,
        timingBreach s = some (tFall, required) ∧ performSet p v need s =
          .fault (.lcdTimingViolation s.now s.trace.length tFall required ((s.retire (.set p v)).setPin p v))) ∨
      (¬(p = .e ∧ s.pins.falls p v = true) ∧ (p = .e → v = true → timingBreach s = none) ∧
        performSet p v need s = .next ((s.retire (.set p v)).setPin p v)) := by
  by_cases h : p = .e ∧ s.pins.falls p v = true
  · exact .inl ⟨h.1, h.2, if_pos h⟩
  · by_cases h' : p = .e ∧ v = true
    · cases hb : timingBreach s with
      | none => exact .inr (.inr ⟨h, fun _ _ => rfl, by rw [performSet, if_neg h, if_pos h', hb]⟩)
      | some b =>
        exact .inr (.inl ⟨h, h'.1, h'.2, b.1, b.2, rfl, by rw [performSet, if_neg h, if_pos h', hb]⟩)
    · exact .inr (.inr ⟨h, fun a b => absurd ⟨a, b⟩ h', by rw [performSet, if_neg h, if_neg h']⟩)

/-- The settle obligation as the check reads it (R205). -/
theorem timingBreach_none_iff (s : State) :
    timingBreach s = none ↔ ∀ tFall need, s.lastXfer = some (tFall, need) → need ≤ s.now - tFall := by
  unfold timingBreach
  split <;> rename_i h
  · rename_i a b
    split <;> simp [h] <;> omega
  · simp [h]

/-- What a step can be, in its order: a launch refusal, a reset, a host action, or an action of the running sequence (R204,
R208). -/
theorem step_cases (s : State) :
    (∃ p, launchViolation s = some p ∧ step s = .refused (.badConfiguration p)) ∨
      (launchViolation s = none ∧ ∃ t, resetDue s = some t ∧ step s = takeReset t s) ∨
      (resetDue s = none ∧ launchViolation s = none ∧ s.phase = .ready ∧ step s = takeHostAction s) ∨
      (resetDue s = none ∧ launchViolation s = none ∧ s.phase ≠ .ready ∧ step s = runSequence s) := by
  cases h : launchViolation s with
  | some p => exact .inl ⟨p, rfl, by simp only [step, h]⟩
  | none =>
    cases h' : resetDue s with
    | some t => exact .inr (.inl ⟨rfl, t, rfl, by simp only [step, h, h']⟩)
    | none =>
      cases hp : s.phase with
      | ready => exact .inr (.inr (.inl ⟨rfl, rfl, rfl, by simp only [step, h, h', runPhase, hp]⟩))
      | wake => exact .inr (.inr (.inr ⟨rfl, rfl, by simp, by simp only [step, h, h', runPhase, hp]⟩))
      | busy => exact .inr (.inr (.inr ⟨rfl, rfl, by simp, by simp only [step, h, h', runPhase, hp]⟩))

/-- No reset is ever due where none is scheduled. -/
theorem resetDue_nil (s : State) (h : s.resets = []) : resetDue s = none := by simp only [resetDue, h]

/-- In BUSY with no reset due and something to perform, a step performs the head action (R27). -/
theorem step_busy (s : State) (it : SeqItem) (rest : List SeqItem) (hr : resetDue s = none) (hp : s.phase = .busy)
    (hq : s.seq = it :: rest) : step s = perform it s := by
  simp [step, hr, launchViolation, hp, runPhase, runSequence, hq]

/-! ### Runs -/

theorem run_succ_next {n : Nat} {s t : State} (h : step s = .next t) : run (n + 1) s = run n t := by
  simp only [run, h]

/-- A run of m + n steps is a run of m steps and then one of n. -/
theorem run_add {m : Nat} (n : Nat) {s t : State} (h : run m s = .next t) : run (m + n) s = run n t := by
  induction m generalizing s with
  | zero => cases h; simp
  | succ m ih =>
    rw [Nat.succ_add]
    cases hs : step s with
    | next u => rw [run_succ_next hs] at h ⊢; exact ih h
    | fault r => simp only [run, hs, reduceCtorEq] at h
    | refused r => simp only [run, hs, reduceCtorEq] at h

/-- The host's run of any machine, one step unfolded. -/
theorem host_run_succ (M : Host.Core) (n : Nat) (s : M.State) : M.run (n + 1) s = match M.step s with
    | .next t => M.run n t
    | .fault r => .fault r
    | .refused r => .refused r := rfl

/-- The host's run of `core` is this run. -/
theorem core_run (n : Nat) (s : State) : Host.Core.run core n s = run n s := by
  induction n generalizing s with
  | zero => rfl
  | succ n ih =>
    refine (host_run_succ core n s).trans ?_
    change _ = run (n + 1) s
    cases hs : step s with
    | next t =>
      have hc : core.step s = .next t := hs
      rw [run_succ_next hs, ← ih t, hc]
    | fault r =>
      have hc : core.step s = .fault r := hs
      simp only [run, hs, hc]
      rfl
    | refused r =>
      have hc : core.step s = .refused r := hs
      simp only [run, hs, hc]
      rfl

end Sys2Proof.Laws
end

