-- ==== Sys2Proof/Laws/PerInstr.lean ====
section
/-! SUPPORT. One family of facts per instruction: its words pass every check of WellFormed.lean (30_encoding.md R74 to R76,
R82). -/

namespace Sys2Proof.Laws.EncodingWellFormed

/-- The words of an instruction are well formed, whatever its operands. -/
def Statement (i : Instr) : Prop := (encode i).wellFormed = true

theorem shiftbit (b : Bool) : Statement (.shiftbit b) := by
  unfold Statement; revert b; decide

theorem shiftbyte (x : Byte) : Statement (.shiftbyte x) := by
  unfold Statement; revert x; decide

theorem latch : Statement .latch := by unfold Statement; decide

theorem putbit (b : Bool) : Statement (.putbit b) := by
  unfold Statement; revert b; decide

theorem putbyte (x : Byte) : Statement (.putbyte x) := by
  unfold Statement; revert x; decide

theorem command (x : Byte) : Statement (.command x) := by
  unfold Statement; revert x; decide

theorem writechar (c : Byte) : Statement (.writechar c) := by
  unfold Statement; revert c; decide

theorem clear : Statement .clear := by unfold Statement; decide

theorem home : Statement .home := by unfold Statement; decide

theorem funcset (e n s : Bool) : Statement (.funcset e n s) := by
  unfold Statement; revert e n s; decide

theorem dispset (d c k : Bool) : Statement (.dispset d c k) := by
  unfold Statement; revert d c k; decide

theorem entryset (i h : Bool) : Statement (.entryset i h) := by
  unfold Statement; revert i h; decide

theorem setddram (a : BitVec 7) : Statement (.setddram a) := by
  unfold Statement; revert a; decide

theorem setcgram (a : BitVec 6) : Statement (.setcgram a) := by
  unfold Statement; revert a; decide

theorem setcursor (l : Bool) (idx : Byte) : Statement (.setcursor l idx) := by
  unfold Statement; cases l <;> (revert idx; decide)

theorem defaultsetup : Statement .defaultsetup := by unfold Statement; decide

theorem writestr (t : Text) : Statement (.writestr t) := by
  unfold Statement
  rw [encode, show requestWord 0x13 0 0 = 0x9800 from rfl]
  simp [Code.wellFormed, Request.wellFormed, Request.opListed, Request.reservedZero, Request.textsFit,
    Request.opNumber, Request.fNumber, Request.aNumber]

theorem writemsg (t1 t2 : Text) : Statement (.writemsg t1 t2) := by
  unfold Statement
  rw [encode, show requestWord 0x14 0 0 = 0xA000 from rfl]
  simp [Code.wellFormed, Request.wellFormed, Request.opListed, Request.reservedZero, Request.textsFit,
    Request.opNumber, Request.fNumber, Request.aNumber]

theorem lcdClear : Statement .lcdClear := by unfold Statement; decide

theorem lcdHome : Statement .lcdHome := by unfold Statement; decide

theorem lcdEntryModeSet (i h : Bool) : Statement (.lcdEntryModeSet i h) := by
  unfold Statement; revert i h; decide

theorem lcdDisplaySet (d c k : Bool) : Statement (.lcdDisplaySet d c k) := by
  unfold Statement; revert d c k; decide

theorem lcdFunctionSet (n s : Bool) : Statement (.lcdFunctionSet n s) := by
  unfold Statement; revert n s; decide

theorem lcdCgramAddressSet (a : BitVec 6) : Statement (.lcdCgramAddressSet a) := by
  unfold Statement; revert a; decide

theorem lcdDdramAddressSet (a : BitVec 7) : Statement (.lcdDdramAddressSet a) := by
  unfold Statement; revert a; decide

theorem lcdData (x : Byte) : Statement (.lcdData x) := rfl

end Sys2Proof.Laws.EncodingWellFormed
end

