-- ==== Sys2Proof/Laws/Step.lean ====
section
/-! SUPPORT. Everything one step can do when it answers a next state, said once: the provers derive each invariant from
`step_next_cases` and unfold no step function. -/

namespace Sys2Proof.Laws

open Sys2Proof.Machine

/-- A byte the controller decodes is logged as it stands (60_exceptions.md R218). -/
theorem exec_decodeBus {rs : Bool} {x : Byte} {i : Instr} (h : decodeBus rs x = some i) (s : State) :
    exec i s = .next (busWrite rs x s) := by
  have entry : ∀ y : Byte, y &&& 0xFC = 0x04 → entrysetByte (y.getLsbD 1) (y.getLsbD 0) = y := by decide
  have disp : ∀ y : Byte, y &&& 0xF8 = 0x08 → dispsetByte (y.getLsbD 2) (y.getLsbD 1) (y.getLsbD 0) = y := by decide
  have func : ∀ y : Byte, y &&& 0xF3 = 0x30 → funcsetByte true (y.getLsbD 3) (y.getLsbD 2) = y := by decide
  have cgram : ∀ y : Byte, y &&& 0xC0 = 0x40 → cgramByte (y.extractLsb' 0 6) = y := by decide
  have ddram : ∀ y : Byte, y &&& 0x80 = 0x80 → ddramByte (y.extractLsb' 0 7) = y := by decide
  have whole : ∀ y z : Byte, y &&& 0xFF = z → z = y := by
    intro y z hy; rw [← hy]; exact BitVec.and_allOnes (x := y)
  cases rs with
  | true => cases h; rfl
  | false =>
    simp only [decodeBus, Bool.false_eq_true, if_false] at h
    split_ifs at h with h1 h2 h3 h4 h5 h6 h7 <;> cases h
    · exact congrArg (fun y => Host.Outcome.next (busWrite false y s)) (whole x 0x01 h1)
    · exact congrArg (fun y => Host.Outcome.next (busWrite false y s)) (whole x 0x02 h2)
    · exact congrArg (fun y => Host.Outcome.next (busWrite false y s)) (entry x h3)
    · exact congrArg (fun y => Host.Outcome.next (busWrite false y s)) (disp x h4)
    · exact congrArg (fun y => Host.Outcome.next (busWrite false y s)) (func x h5)
    · exact congrArg (fun y => Host.Outcome.next (busWrite false y s)) (cgram x h6)
    · exact congrArg (fun y => Host.Outcome.next (busWrite false y s)) (ddram x h7)

/-- Sampling a known byte logs it, listed or not (60_exceptions.md R218; 30_encoding.md R82). -/
theorem sample_known {s : State} {x : Byte} (need : Nat) (h : s.q.byte? = some x) :
    sample s need = .next (busWrite s.pins.rs x (s.fallE need)) := by
  obtain ⟨h', -⟩ | ⟨y, i, h1, h2, h3⟩ | ⟨y, h1, -, h3⟩ := sample_cases s need
  · rw [h] at h'; cases h'
  · rw [h] at h1; cases h1; exact h3.trans (exec_decodeBus h2 _)
  · rw [h] at h1; cases h1; exact h3

/-- A request the decoder accepts is accepted by the sequencer: its meaning loads an action list (10_state.md R27). -/
theorem exec_decodeReq {r : Request} {i : Instr} (h : decodeReq r = .ok i) (s : State) :
    ∃ items, exec i s = accept items s := by
  unfold decodeReq at h
  split at h
  · cases h
  · rename_i j hj
    have hi : j = i := by
      split_ifs at h <;> cases h <;> rfl
    subst hi
    unfold selectOp at hj
    split at hj <;> cases hj <;> exact ⟨_, rfl⟩

/-- What performing the head action can lead to. -/
theorem perform_next_cases {it : SeqItem} {s t : State} (h : perform it s = .next t) :
    (∃ d, it.action = .wait d ∧ t = performWait d s) ∨
      (∃ p v, it.action = .set p v ∧ ¬(p = .e ∧ s.pins.falls p v = true) ∧
        (p = .e → v = true → timingBreach s = none) ∧ t = (s.retire (.set p v)).setPin p v) ∨
      (∃ x, it.action = .set .e false ∧ s.pins.e = true ∧ s.q.byte? = some x ∧
        t = busWrite s.pins.rs x (s.fallE it.need)) := by
  obtain ⟨a, need⟩ := it
  cases a with
  | wait d => cases h; exact .inl ⟨d, rfl, rfl⟩
  | set p v =>
    obtain ⟨hp, hf, h'⟩ | ⟨-, -, -, b, c, -, h'⟩ | ⟨hf, hb, h'⟩ := performSet_cases p v need s
    · have h2 : sample s need = .next t := h'.symm.trans h
      subst hp
      have he : s.pins.e = true ∧ v = false := by simpa [Pins.falls, Pins.get] using hf
      obtain ⟨he, rfl⟩ := he
      cases hx : s.q.byte? with
      | none => obtain ⟨-, h3⟩ | ⟨y, i, h3, -⟩ | ⟨y, h3, -⟩ := sample_cases s need <;> simp_all
      | some x =>
        rw [sample_known need hx] at h2
        cases h2
        exact .inr (.inr ⟨x, rfl, he, rfl, rfl⟩)
    · have h2 := h'.symm.trans h
      cases h2
    · have h2 := h'.symm.trans h
      cases h2
      exact .inr (.inl ⟨p, v, rfl, hf, hb, rfl⟩)

/-- Everything a step can do when it answers a next state, in the order of 60_exceptions.md R208: a reset in READY; READY
with no request, an idle, an accepted request; an empty sequence; a wait; a driven line with no fall of E; a fall of E with
its sampled byte. -/
theorem step_next_cases {s t : State} (h : step s = .next t) :
    (∃ time, resetDue s = some time ∧ s.phase = .ready ∧ t = restart s) ∨
    (resetDue s = none ∧ s.phase = .ready ∧ s.host = [] ∧ t = s) ∨
    (resetDue s = none ∧ s.phase = .ready ∧ ∃ d rest, s.host = .idle d :: rest ∧ t = idle d { s with host := rest }) ∨
    (resetDue s = none ∧ s.phase = .ready ∧ ∃ r rest i items, s.host = .req r :: rest ∧ decodeReq r = .ok i ∧
      exec i { s with host := rest } = accept items { s with host := rest } ∧
      t = { s with host := rest, seq := items, phase := if items.isEmpty then .ready else .busy }) ∨
    (resetDue s = none ∧ s.phase ≠ .ready ∧ s.seq = [] ∧ t = { s with phase := .ready }) ∨
    (resetDue s = none ∧ s.phase ≠ .ready ∧ ∃ d need rest, s.seq = ⟨.wait d, need⟩ :: rest ∧ t = performWait d s) ∨
    (resetDue s = none ∧ s.phase ≠ .ready ∧ ∃ p v need rest, s.seq = ⟨.set p v, need⟩ :: rest ∧
      ¬(p = .e ∧ s.pins.falls p v = true) ∧ (p = .e → v = true → timingBreach s = none) ∧
      t = (s.retire (.set p v)).setPin p v) ∨
    (resetDue s = none ∧ s.phase ≠ .ready ∧ ∃ need rest x, s.seq = ⟨.set .e false, need⟩ :: rest ∧ s.pins.e = true ∧
      s.q.byte? = some x ∧ t = busWrite s.pins.rs x (s.fallE need)) := by
  obtain ⟨p, -, h'⟩ | ⟨-, time, hd, h'⟩ | ⟨hd, -, hp, h'⟩ | ⟨hd, -, hp, h'⟩ := step_cases s
  · cases h'.symm.trans h
  · obtain ⟨hp, h2⟩ | ⟨-, h2⟩ := takeReset_cases time s
    · cases (h'.trans h2).symm.trans h; exact .inl ⟨time, hd, hp, rfl⟩
    · cases (h'.trans h2).symm.trans h
  · have h2 := h'.symm.trans h
    unfold takeHostAction at h2
    split at h2
    · rename_i hh; cases h2; exact .inr (.inl ⟨hd, hp, hh, rfl⟩)
    · rename_i d rest hh; cases h2; exact .inr (.inr (.inl ⟨hd, hp, d, rest, hh, rfl⟩))
    · rename_i r rest hh
      unfold presentRequest at h2
      split at h2
      · rename_i i hi
        obtain ⟨items, hx⟩ := exec_decodeReq hi { s with host := rest }
        have h3 := (hx.trans (accept_next items _)).symm.trans h2
        rw [if_pos (by exact hp)] at h3
        cases h3
        exact .inr (.inr (.inr (.inl ⟨hd, hp, r, rest, i, items, hh, hi, hx, rfl⟩)))
      · cases h2
  · have h2 := h'.symm.trans h
    unfold runSequence at h2
    split at h2
    · rename_i hq; cases h2; exact .inr (.inr (.inr (.inr (.inl ⟨hd, hp, hq, rfl⟩))))
    · rename_i it rest hq
      obtain ⟨a, need⟩ := it
      obtain ⟨d, ha, ht⟩ | ⟨p, v, ha, hf, hb, ht⟩ | ⟨x, ha, he, hx, ht⟩ := perform_next_cases h2
      · cases ha; exact .inr (.inr (.inr (.inr (.inr (.inl ⟨hd, hp, d, need, rest, hq, ht⟩)))))
      · cases ha; exact .inr (.inr (.inr (.inr (.inr (.inr (.inl ⟨hd, hp, p, v, need, rest, hq, hf, hb, ht⟩))))))
      · cases ha; exact .inr (.inr (.inr (.inr (.inr (.inr (.inr ⟨hd, hp, need, rest, x, hq, he, hx, ht⟩))))))

/-- A property every step keeps holds after any run of steps. -/
theorem run_invariant {Inv : State → Prop} (hstep : ∀ s t, Inv s → step s = .next t → Inv t) (n : Nat) {s t : State}
    (hs : Inv s) (h : run n s = .next t) : Inv t := by
  induction n generalizing s with
  | zero => cases h; exact hs
  | succ n ih =>
    cases hs' : step s with
    | next u => rw [run_succ_next hs'] at h; exact ih (hstep s u hs hs') h
    | fault r => simp only [run, hs', reduceCtorEq] at h
    | refused r => simp only [run, hs', reduceCtorEq] at h

/-- A run that ends in a fault reaches, by steps that keep the invariant, a state whose step is that fault. -/
theorem run_fault {Inv : State → Prop} (hstep : ∀ s t, Inv s → step s = .next t → Inv t) (n : Nat) {s : State}
    {f : Fault} (hs : Inv s) (h : run n s = .fault f) : ∃ u, Inv u ∧ step u = .fault f := by
  induction n generalizing s with
  | zero => cases h
  | succ n ih =>
    cases hs' : step s with
    | next u => rw [run_succ_next hs'] at h; exact ih (hstep s u hs hs') h
    | fault r => simp only [run, hs', Host.Outcome.fault.injEq] at h; subst h; exact ⟨s, hs, hs'⟩
    | refused r => simp only [run, hs', reduceCtorEq] at h

end Sys2Proof.Laws
end

