-- ==== Sys2Proof/Laws/Reset.lean ====
section
/-! SUPPORT. A reset that comes later changes nothing before it: what a step or a run does with no reset scheduled, it does
with one scheduled for after its end (60_exceptions.md R208; 70_reset_and_hazards.md R234, R235). -/

namespace Sys2Proof.Laws

open Sys2Proof.Machine Sys2Proof.Safety

/-- s with other times at which `rst` is asserted. -/
def withResets (s : State) (rs : List Nat) : State := { s with resets := rs }

theorem withResets_self (s : State) (rs : List Nat) : withResets (withResets s rs) s.resets = s := rfl

/-- A meaning neither reads nor changes the scheduled resets. -/
theorem exec_withResets (i : Instr) {s t : State} (rs : List Nat) (h : exec i s = .next t) :
    exec i (withResets s rs) = .next (withResets t rs) := by
  have ha : ∀ items, accept items s = .next t → accept items (withResets s rs) = .next (withResets t rs) := by
    intro items h'
    rw [accept_next] at h' ⊢
    by_cases hp : s.phase = .ready
    · rw [if_pos hp] at h'
      rw [if_pos (by exact hp)]
      cases h'; rfl
    · rw [if_neg hp] at h'
      rw [if_neg (by exact hp)]
      cases h'; rfl
  cases i <;> first | exact ha _ h | (cases h; rfl)

/-- Performing an action neither reads nor changes the scheduled resets. -/
theorem perform_withResets {it : SeqItem} {s t : State} (rs : List Nat) (h : perform it s = .next t) :
    perform it (withResets s rs) = .next (withResets t rs) := by
  obtain ⟨a, need⟩ := it
  obtain ⟨d, ha, rfl⟩ | ⟨p, v, ha, hf, hb, rfl⟩ | ⟨x, ha, he, hx, rfl⟩ := perform_next_cases h
  · cases ha; rfl
  · cases ha
    obtain ⟨h1, h2, -⟩ | ⟨-, h1, h2, b, c, h3, -⟩ | ⟨-, -, h'⟩ := performSet_cases p v need (withResets s rs)
    · exact absurd ⟨h1, h2⟩ hf
    · have h4 : timingBreach s = some (b, c) := h3
      rw [hb h1 h2] at h4
      cases h4
    · exact h'
  · cases ha
    have hs : performSet .e false need (withResets s rs) = sample (withResets s rs) need := by
      unfold performSet
      exact if_pos ⟨rfl, by simp [withResets, Pins.falls, Pins.get, he]⟩
    exact hs.trans (sample_known need (by exact hx))

/-- No reset is due where the first one is later than the end of the next action. -/
theorem resetDue_later {s : State} (h : ResetAfter s (s.now + if s.phase = .ready then 0 else headWait s)) :
    resetDue s = none := by
  unfold resetDue
  cases hr : s.resets with
  | nil => rfl
  | cons r later =>
    have hlt := h r (by rw [hr]; rfl)
    refine if_neg ?_
    rintro (h1 | ⟨h1, h2⟩)
    · omega
    · rw [if_neg h1] at hlt; omega

/-- With no reset scheduled, a step leaves none scheduled and time does not go back (10_state.md R35). -/
theorem step_noReset {s t : State} (hr : s.resets = []) (h : step s = .next t) : t.resets = [] ∧ s.now ≤ t.now := by
  obtain ⟨time, hd, -, -⟩ | ⟨-, -, -, rfl⟩ | ⟨-, -, d, rest, -, rfl⟩ | ⟨-, -, r, rest, i, items, -, -, -, rfl⟩ |
    ⟨-, -, -, rfl⟩ | ⟨-, -, d, need, rest, -, rfl⟩ | ⟨-, -, p, v, need, rest, -, -, -, rfl⟩ |
    ⟨-, -, need, rest, x, -, -, -, rfl⟩ := step_next_cases h
  · rw [resetDue_nil s hr] at hd; cases hd
  all_goals exact ⟨hr, by simp [busWrite]⟩

/-- One step: a reset scheduled for after its end changes nothing. -/
theorem step_laterReset {s t : State} (h : step (withResets s []) = .next t) (hr : ResetAfter s t.now) :
    step s = .next (withResets t s.resets) := by
  have hle : s.now ≤ t.now := (step_noReset rfl h).2
  have hstart : ∀ n, s.now + n ≤ t.now → ResetAfter s (s.now + n) := fun n hn r hrr => Nat.lt_of_le_of_lt hn (hr r hrr)
  obtain ⟨p, -, h'⟩ | ⟨-, time, hd, -⟩ | ⟨-, hl, hp, h'⟩ | ⟨-, hl, hp, h'⟩ := step_cases (withResets s [])
  · cases h'.symm.trans h
  · cases hd
  · have hp' : s.phase = .ready := hp
    have hd : resetDue s = none := resetDue_later (by rw [if_pos hp']; exact hstart 0 hle)
    have hs : step s = takeHostAction s := by
      obtain ⟨q, hq, -⟩ | ⟨-, time, hd', -⟩ | ⟨-, -, -, hs⟩ | ⟨-, -, hp2, -⟩ := step_cases s
      · have hl' : launchViolation s = none := hl
        rw [hl'] at hq; cases hq
      · rw [hd] at hd'; cases hd'
      · exact hs
      · exact absurd hp' hp2
    have h2 := h'.symm.trans h
    rw [hs]
    obtain ⟨config, pins, phase, seq, sr, q, busLog, lastXfer, now, trace, host, resets⟩ := s
    cases host with
    | nil => cases h2; rfl
    | cons a rest =>
      cases a with
      | idle d =>
        cases h2
        have hspan : ∀ x : State, x.now = now → x.resets = resets → idleSpan x d = d := by
          intro x hx hrs
          unfold idleSpan
          cases hx' : x.resets with
          | nil => rfl
          | cons r later =>
            have hlt : now + d < r := hr r (by simp only; rw [← hrs, hx']; rfl)
            simp only
            omega
        simp only [takeHostAction, idle, hspan, withResets]
        rfl
      | req r =>
        have hpr : presentRequest r ⟨config, pins, phase, seq, sr, q, busLog, lastXfer, now, trace, rest, []⟩ = .next t := h2
        change presentRequest r ⟨config, pins, phase, seq, sr, q, busLog, lastXfer, now, trace, rest, resets⟩ = _
        unfold presentRequest at hpr ⊢
        cases hi : decodeReq r with
        | ok i => rw [hi] at hpr; exact exec_withResets i resets hpr
        | error e => rw [hi] at hpr; cases hpr
  · have hp' : s.phase ≠ .ready := hp
    have h2 := h'.symm.trans h
    unfold runSequence at h2
    simp only [withResets] at h2
    have hw : s.now + headWait s ≤ t.now := by
      cases hq : s.seq with
      | nil => rw [hq] at h2; cases h2; simp [headWait, hq]
      | cons it rest =>
        rw [hq] at h2
        obtain ⟨a, need⟩ := it
        cases a with
        | wait d => cases h2; simp [headWait, hq]
        | set p v => simpa [headWait, hq] using hle
    have hd : resetDue s = none := resetDue_later (by rw [if_neg hp']; exact hstart _ hw)
    have hs : step s = runSequence s := by
      obtain ⟨q, hq, -⟩ | ⟨-, time, hd', -⟩ | ⟨-, -, hp2, -⟩ | ⟨-, -, -, hs⟩ := step_cases s
      · have hl' : launchViolation s = none := hl
        rw [hl'] at hq; cases hq
      · rw [hd] at hd'; cases hd'
      · exact absurd hp2 hp'
      · exact hs
    rw [hs]
    obtain ⟨config, pins, phase, seq, sr, q, busLog, lastXfer, now, trace, host, resets⟩ := s
    cases seq with
    | nil => cases h2; rfl
    | cons it rest => exact perform_withResets (s := withResets _ []) resets h2

/-- A run: a reset scheduled for after its end changes nothing. -/
theorem run_laterReset (n : Nat) {s t : State} (h : run n (withResets s []) = .next t) (hr : ResetAfter s t.now) :
    run n s = .next (withResets t s.resets) := by
  have mono : ∀ (m : Nat) (a b : State), a.resets = [] → run m a = .next b → b.resets = [] ∧ a.now ≤ b.now := by
    intro m
    induction m with
    | zero => intro a b ha hb; cases hb; exact ⟨ha, Nat.le_refl _⟩
    | succ m ih =>
      intro a b ha hb
      cases hs : step a with
      | next c =>
        rw [run_succ_next hs] at hb
        obtain ⟨h1, h2⟩ := step_noReset ha hs
        obtain ⟨h3, h4⟩ := ih c b h1 hb
        exact ⟨h3, Nat.le_trans h2 h4⟩
      | fault r => simp only [run, hs, reduceCtorEq] at hb
      | refused r => simp only [run, hs, reduceCtorEq] at hb
  induction n generalizing s with
  | zero => cases h; rfl
  | succ n ih =>
    cases hs : step (withResets s []) with
    | next u =>
      rw [run_succ_next hs] at h
      obtain ⟨h1, -⟩ := step_noReset rfl hs
      have h2 := (mono n u t h1 h).2
      rw [run_succ_next (step_laterReset hs fun r hrr => Nat.lt_of_le_of_lt h2 (hr r hrr))]
      have hu : withResets (withResets u s.resets) [] = u := by
        cases u; simp only [withResets] at h1 ⊢; rw [← h1]
      have := ih (s := withResets u s.resets) (by rw [hu]; exact h) (by exact hr)
      exact this
    | fault r => simp only [run, hs, reduceCtorEq] at h
    | refused r => simp only [run, hs, reduceCtorEq] at h

end Sys2Proof.Laws
end

