-- ==== Sys2Proof/Laws/Run.lean ====
section
/-! SUPPORT. What a run of the sequencer does with each block of actions: a shifted bit, a byte, a latch, a
wait. Each lemma states everything the block changes; the lemma of a larger block cites those of its parts. A whole
transfer is in Laws/Transfer.lean. -/

namespace Sys2Proof.Laws

open Sys2Proof.Machine Sys2Proof.Safety

/-- The sequencer is running with no reset scheduled, on a configuration the launch check passes (or past it). -/
structure Going (s : State) : Prop where
  resets : s.resets = []
  running : s.phase ≠ .ready
  launched : s.phase = .wake → configViolation s.config = none

/-- A running sequencer performs the head action. -/
theorem Going.step {s : State} (h : Going s) {it : SeqItem} {rest : List SeqItem} (hq : s.seq = it :: rest) :
    Machine.step s = perform it s := by
  have hl : launchViolation s = none := by
    unfold launchViolation
    split
    · rename_i hw; exact h.launched hw.1
    · rfl
  have hr := h.running
  simp only [Machine.step, resetDue_nil s h.resets, hl, runPhase]
  cases hp : s.phase <;> simp_all [runSequence]

/-- s after a block: `rest` is left to perform, and the block's effects have happened. -/
def past (s : State) (rest : List SeqItem) (pins : Pins) (sr q : Stages) (dt : Nat) (acts : List Action) : State :=
  { s with
    seq := rest
    phase := if rest.isEmpty then .ready else s.phase
    pins := pins
    sr := sr
    q := q
    now := s.now + dt
    trace := s.trace ++ acts }

/-- A block leaves the sequencer going while something is left. -/
theorem Going.past {s : State} (h : Going s) {rest : List SeqItem} (hrest : rest ≠ []) (pins : Pins) (sr q : Stages)
    (dt : Nat) (acts : List Action) : Going (past s rest pins sr q dt acts) := by
  have he : rest.isEmpty = false := by cases rest <;> simp_all
  exact ⟨h.resets, by simp [Laws.past, he, h.running], by simpa [Laws.past, he] using h.launched⟩

/-- Two blocks, one after the other. -/
theorem past_past (s : State) {rest : List SeqItem} (hrest : rest ≠ []) (rest' : List SeqItem) (p p' : Pins)
    (sr sr' q q' : Stages) (dt dt' : Nat) (acts acts' : List Action) :
    past (past s rest p sr q dt acts) rest' p' sr' q' dt' acts' =
      past s rest' p' sr' q' (dt + dt') (acts ++ acts') := by
  have he : rest.isEmpty = false := by cases rest <;> simp_all
  simp only [past, he, List.append_assoc, Nat.add_assoc]
  simp

/-- The lines and the shift register after an action list with no edge of E (R214, R215). -/
def devAfter : Pins → Stages → Stages → List Action → Pins × Stages × Stages
  | p, sr, q, [] => (p, sr, q)
  | p, sr, q, .wait _ :: rest => devAfter p sr q rest
  | p, sr, q, .set l v :: rest => devAfter (p.drive l v) (srAfter p sr l v) (qAfter p sr q l v) rest

/-- An action that does not drive E. -/
def notE : Action → Bool
  | .set l _ => decide (l ≠ .e)
  | .wait _ => true

/-- s after the actions `acts`, none of which drives E, with `rest` left. -/
def pastActs (s : State) (rest : List SeqItem) (acts : List Action) : State :=
  past s rest (devAfter s.pins s.sr s.q acts).1 (devAfter s.pins s.sr s.q acts).2.1
    (devAfter s.pins s.sr s.q acts).2.2 (duration acts) acts

/-- One action that does not drive E. -/
theorem run_one {s : State} (h : Going s) {it : SeqItem} {rest : List SeqItem} (hq : s.seq = it :: rest)
    (he : notE it.action = true) : run 1 s = .next (pastActs s rest [it.action]) := by
  have hp : perform it s = .next (pastActs s rest [it.action]) := by
    obtain ⟨a, need⟩ := it
    cases a with
    | wait d => simp [perform, performWait, pastActs, past, devAfter, duration, State.retire, hq]
    | set l v =>
      have hl : l ≠ .e := by simpa [notE] using he
      simp [perform, performSet, hl, pastActs, past, devAfter, duration, State.retire, State.setPin, hq]
  rw [run_succ_next ((h.step hq).trans hp), run]

/-- One action, and then the rest of its block. -/
theorem pastActs_cons (s : State) {rest : List SeqItem} (hrest : rest ≠ []) (rest' : List SeqItem) (a : Action)
    (as : List Action) : pastActs (pastActs s rest [a]) rest' as = pastActs s rest' (a :: as) := by
  unfold pastActs
  rw [past_past s hrest]
  cases a <;> simp [past, devAfter, duration]

/-- A block with no edge of E runs through: every action is performed, in order, one a step (R27, R63). -/
theorem run_block (items : List SeqItem) (hne : items ≠ []) {s : State} (h : Going s) {rest : List SeqItem}
    (hq : s.seq = items ++ rest) (he : (items.all fun it => notE it.action) = true) :
    run items.length s = .next (pastActs s rest (items.map (·.action))) := by
  induction items generalizing s with
  | nil => exact absurd rfl hne
  | cons it tl ih =>
    have he' : notE it.action = true ∧ (tl.all fun it => notE it.action) = true := by simpa using he
    have h1 := run_one h (rest := tl ++ rest) (by simpa using hq) he'.1
    cases tl with
    | nil => simpa using h1
    | cons it2 tl2 =>
      have hr : it2 :: tl2 ++ rest ≠ [] := by simp
      have h2 := ih (by simp) (s := pastActs s (it2 :: tl2 ++ rest) [it.action]) (h.past hr _ _ _ _ _) rfl he'.2
      rw [List.length_cons, Nat.add_comm, run_add _ h1, h2, List.map_cons (a := it), pastActs_cons s hr]

/-! ### The blocks -/

/-- One bit: SER takes it, and the rising edge of SRCLK shifts it in (R101). -/
theorem devAfter_bit (c : Config) (b : Bool) (p : Pins) (sr q : Stages) (h : p.srclk = false) (as : List Action) :
    devAfter p sr q (bitActions c b ++ as) = devAfter { p with ser := b } (sr.shiftIn b) q as := by
  obtain ⟨ser, srclk, rclk, e, rw', rs⟩ := p
  subst h
  rfl

/-- A latch: the rising edge of RCLK takes all eight stages (R103). -/
theorem devAfter_latch (c : Config) (p : Pins) (sr q : Stages) (h : p.rclk = false) (as : List Action) :
    devAfter p sr q (latchActions c ++ as) = devAfter p sr sr as := by
  obtain ⟨ser, srclk, rclk, e, rw', rs⟩ := p
  subst h
  rfl

/-- A byte: the stages hold it whatever they held before, and SER its bit 0 (R102). -/
theorem devAfter_byte (c : Config) (x : Byte) (p : Pins) (sr q : Stages) (h : p.srclk = false) (as : List Action) :
    devAfter p sr q (byteActions c x ++ as) = devAfter { p with ser := x.getLsbD 0 } (Stages.ofByte x) q as := by
  simp only [byteActions, List.append_assoc]
  rw [devAfter_bit, devAfter_bit, devAfter_bit, devAfter_bit, devAfter_bit, devAfter_bit, devAfter_bit,
    devAfter_bit, shiftIn_eight] <;> exact h

/-- The loop of R102, unrolled. -/
theorem byteSeq_bits (c : Config) (x : Byte) : byteSeq c x =
    bitSeq c (x.getLsbD 7) ++ (bitSeq c (x.getLsbD 6) ++ (bitSeq c (x.getLsbD 5) ++ (bitSeq c (x.getLsbD 4) ++
      (bitSeq c (x.getLsbD 3) ++ (bitSeq c (x.getLsbD 2) ++ (bitSeq c (x.getLsbD 1) ++ bitSeq c (x.getLsbD 0))))))) :=
  rfl

@[simp] theorem actions_bitSeq (c : Config) (b : Bool) : (bitSeq c b).map (·.action) = bitActions c b := rfl

@[simp] theorem actions_latchSeq (c : Config) : (latchSeq c).map (·.action) = latchActions c := rfl

@[simp] theorem actions_byteSeq (c : Config) (x : Byte) : (byteSeq c x).map (·.action) = byteActions c x := rfl

@[simp] theorem duration_append (as bs : List Action) : duration (as ++ bs) = duration as + duration bs := by
  induction as with
  | nil => simp [duration]
  | cons a as ih => cases a <;> simp [duration, ih, Nat.add_assoc]

theorem duration_bit (c : Config) (b : Bool) : duration (bitActions c b) = 3 * c.tS := by
  simp only [duration, bitActions]; omega

theorem duration_latch (c : Config) : duration (latchActions c) = 2 * c.tS := by
  simp only [duration, latchActions]; omega

theorem duration_byte (c : Config) (x : Byte) : duration (byteActions c x) = 24 * c.tS := by
  simp only [byteActions, duration_append, duration_bit]; omega

end Sys2Proof.Laws
end

