-- ==== Sys2Proof/Laws/Transfer.lean ====
section
/-! SUPPORT. What a run of the sequencer does with the enable pulse and with one whole transfer; and that stages which read
as a byte are that byte's. -/

namespace Sys2Proof.Laws

open Sys2Proof.Machine Sys2Proof.Safety

/-- Stages that read as a byte hold exactly that byte (20_memory.md R56). -/
theorem ofByte_of_byte? {t : Stages} {x : Byte} (h : t.byte? = some x) : t = Stages.ofByte x := by
  obtain ⟨a, b, c, d, e, f, g, i⟩ := t
  revert h
  cases a <;> cases b <;> cases c <;> cases d <;> cases e <;> cases f <;> cases g <;> cases i <;> intro h <;>
    simp [Stages.byte?, Stage.bit?] at h <;> subst h <;> decide

/-- E rises with the settle obligation met (60_exceptions.md R205). -/
theorem run_riseE {s : State} (h : Going s) {need : Nat} {rest : List SeqItem}
    (hq : s.seq = ⟨.set .e true, need⟩ :: rest) (hs : settledAt s.now s.lastXfer = true) :
    run 1 s = .next (past s rest { s.pins with e := true } s.sr s.q 0 [.set .e true]) := by
  have htb : timingBreach s = none := by
    rw [timingBreach_none_iff]; intro a b hab; rw [hab] at hs; simpa [settledAt] using hs
  have hp : perform ⟨.set .e true, need⟩ s =
      .next (past s rest { s.pins with e := true } s.sr s.q 0 [.set .e true]) := by
    simp [perform, performSet, Pins.falls, htb, State.retire, State.setPin, Pins.drive, srAfter, qAfter, past, hq]
  rw [run_succ_next ((h.step hq).trans hp), run]

/-- E falls with a known byte on the bus: the controller takes it, and `last_xfer` is set (60_exceptions.md R218;
41_lcd_transfer.md R121). -/
theorem run_fallE {s : State} (h : Going s) {need : Nat} {rest : List SeqItem} {x : Byte}
    (hq : s.seq = ⟨.set .e false, need⟩ :: rest) (he : s.pins.e = true) (hx : s.q.byte? = some x) :
    run 1 s = .next { past s rest { s.pins with e := false } s.sr s.q 0 [.set .e false] with
      busLog := s.busLog ++ [(s.pins.rs, x)], lastXfer := some (s.now, need) } := by
  have hp : perform ⟨.set .e false, need⟩ s = .next (busWrite s.pins.rs x (s.fallE need)) := by
    simp only [perform, performSet]
    rw [if_pos (by simp [Pins.falls, Pins.get, he])]
    exact sample_known need hx
  rw [run_succ_next ((h.step hq).trans hp), run]
  simp [busWrite, State.fallE, State.retire, State.setPin, Pins.drive, srAfter, qAfter, past, hq]

/-- One enable pulse (00_scope.md R10; 41_lcd_transfer.md R120). -/
theorem run_pulseE {s : State} (h : Going s) {need : Nat} {rest : List SeqItem} {x : Byte}
    (hq : s.seq = pulse s.config .e s.config.tEn need ++ rest) (he : s.pins.e = false)
    (hx : s.q.byte? = some x) (hs : settledAt s.now s.lastXfer = true) :
    run 4 s = .next { past s rest s.pins s.sr s.q (s.config.tEn + s.config.tS)
        [.set .e true, .wait s.config.tEn, .set .e false, .wait s.config.tS] with
      busLog := s.busLog ++ [(s.pins.rs, x)], lastXfer := some (s.now + s.config.tEn, need) } := by
  let r1 := [hold s.config.tEn, ⟨.set .e false, need⟩, hold s.config.tS] ++ rest
  let r2 := [⟨.set .e false, need⟩, hold s.config.tS] ++ rest
  let p1 := { s.pins with e := true }
  let s1 := past s r1 p1 s.sr s.q 0 [.set .e true]
  let s2 := past s1 r2 p1 s.sr s.q s.config.tEn [.wait s.config.tEn]
  have h1 : run 1 s = .next s1 := run_riseE h hq hs
  have g1 : Going s1 := h.past (by simp [r1]) _ _ _ _ _
  have h2 : run 1 s1 = .next s2 := (run_one g1 (rest := r2) rfl rfl).trans <| by
    simp [s2, s1, pastActs, past, devAfter, duration, hold]
  have g2 : Going s2 := g1.past (by simp [r2]) _ _ _ _ _
  have h3 := run_fallE g2 (rest := [hold s.config.tS] ++ rest) (x := x) (need := need) rfl rfl hx
  rw [show (4 : Nat) = 1 + (1 + (1 + 1)) from rfl, run_add _ h1, run_add _ h2, run_add _ h3,
    run_one (rest := rest) (it := hold s.config.tS)]
  · have hpe : s.pins = { s.pins with e := false } := by rw [← he]
    simp [s2, s1, p1, r1, r2, pastActs, past, devAfter, duration, hold, Nat.add_assoc]
    exact hpe.symm
  · exact ⟨h.resets, by simpa [s2, s1, past, r1, r2] using h.running, by simpa [s2, s1, past, r1, r2] using h.launched⟩
  · rfl
  · rfl

/-- One transfer, run through: everything it changes is in `afterTransfer` (41_lcd_transfer.md R120, R121, R125). -/
theorem run_xfer {s : State} (h : Going s) {rs : Bool} {x : Byte} {need : Nat} {rest : List SeqItem}
    (hq : s.seq = xferSeq s.config rs x need ++ rest) (hp : quiet s.pins = true)
    (hs : TransferSettled s) :
    run 60 s = .next
      { afterTransfer s rs x need [] with seq := rest, phase := if rest.isEmpty then .ready else s.phase } := by
  obtain ⟨⟨⟨h1, h2⟩, h3⟩, h4⟩ :
      ((s.pins.srclk = false ∧ s.pins.rclk = false) ∧ s.pins.e = false) ∧ s.pins.rw = false := by
    simpa [quiet] using hp
  let head := putByteSeq s.config x ++ [drivePin .rs rs, hold s.config.tS, drivePin .rw false, hold s.config.tS]
  let tail : List Action := [.set .rs rs, .wait s.config.tS, .set .rw false, .wait s.config.tS]
  have hb := run_block head (by simp [head]) h (rest := pulse s.config .e s.config.tEn need ++ rest)
    (by rw [hq]; simp [xferSeq, head]) rfl
  have hd : devAfter s.pins s.sr s.q (byteActions s.config x ++ (latchActions s.config ++ tail)) =
      devAfter { s.pins with ser := x.getLsbD 0 } (Stages.ofByte x) (Stages.ofByte x) tail := by
    rw [devAfter_byte _ _ _ _ _ h1, devAfter_latch _ _ _ _ (by exact h2)]
  have hacts : head.map (·.action) = byteActions s.config x ++ (latchActions s.config ++ tail) := rfl
  have hdur : duration (byteActions s.config x ++ (latchActions s.config ++ tail)) = 28 * s.config.tS := by
    simp only [duration_append, duration_byte, duration_latch, duration, tail]; omega
  rw [show (60 : Nat) = head.length + 4 from rfl, run_add _ hb, hacts, pastActs, hd, hdur,
    run_pulseE (rest := rest) (x := x) (need := need)]
  · simp [past, afterTransfer, transferTime, devAfter, srAfter, qAfter, Pins.drive, h1, h2, h3, transferActions, pulse, tail]
    omega
  · exact h.past (by simp [pulse]) _ _ _ _ _
  · rfl
  · simpa [past, devAfter, Pins.drive, tail] using h3
  · simp [past, devAfter, srAfter, qAfter, tail]
  · exact hs

end Sys2Proof.Laws
end

