-- ==== Sys2Proof/Tests/Slice0.lean ====
section
/-! SUPPORT. Small tests, every expected value taken from the spec (95_test_vectors.md and the rules cited), and a witness for
each statement that has hypotheses. Every theorem is about at most one step, but for one witness that runs the wake-up. -/

namespace Sys2Proof.Tests

open Sys2Proof.Machine Sys2Proof.Safety

/-! ### Helpers -/

/-- The state of 70_reset_and_hazards.md R232, with a short trace. -/
def postWake : State :=
  { State.reset with
    phase := .ready
    seq := []
    sr := Stages.ofByte 0x30
    q := Stages.ofByte 0x30
    busLog := [(false, 0x30), (false, 0x30), (false, 0x30)]
    lastXfer := some (20089000, 250000)
    now := 20340000
    trace := [.wait 20340000] }

/-- post-wake with a host program. -/
def withHost (h : List HostAction) : State := { postWake with host := h }

/-- A busy state with E high, a byte on the bus, and the end of its transfer left: F1's first COMMAND 0x01. -/
def enabled : State :=
  { postWake with
    phase := .busy
    pins := { Pins.low with e := true }
    sr := Stages.ofByte 0x01
    q := Stages.ofByte 0x01
    now := 20369000
    seq := [⟨.set .e false, 1700000⟩, hold 1000] }

/-- A busy state whose next action is `Set(E, 1)` at this time, after the fall F1 gives. -/
def rising (time : Nat) : State :=
  { postWake with
    phase := .busy
    lastXfer := some (20369000, 1700000)
    now := time
    seq := [⟨.set .e true, 0⟩, hold 1000, ⟨.set .e false, 100000⟩, hold 1000] }

/-- A field of an outcome's next state. -/
def nextField {α : Type} (f : State → α) : Host.Outcome State Fault Refusal → Option α
  | .next t => some (f t)
  | .fault _ => none
  | .refused _ => none

/-- The code of a fault or refusal. -/
def stopCode : Host.Outcome State Fault Refusal → Option Nat
  | .next _ => none
  | .fault f => some (faultCode f)
  | .refused r => refusalCode r

/-- The levels that an accepted operation puts on SER, in order. -/
def serLevels (i : Instr) : Option (List Bool) :=
  nextField (fun t => t.seq.filterMap fun it => match it.action with
    | .set .ser v => some v
    | _ => none) (exec i postWake)

/-- How many actions an accepted operation loads, and the nanoseconds they take. -/
def load (i : Instr) : Option (Nat × Nat) :=
  nextField (fun t => (t.seq.length, duration (t.seq.map (·.action)))) (exec i postWake)

/-- Eight bits, most significant first. -/
def msbFirst (x : Byte) : List Bool := [7, 6, 5, 4, 3, 2, 1, 0].map fun k => x.getLsbD k

/-! ### WellFormed: one ill-formed input for each check -/

/-- S17: the all-zero word is reserved. -/
theorem test_wf_opcode : (Request.mk 0x0000 [] []).wellFormed = false := by decide

/-- S19: operation code 0x1F is reserved. -/
theorem test_wf_opcode_top : (Request.mk 0xF8FF [] []).opListed = false := by decide

/-- S13, S14, S16, L26 to L30: a 1 in a reserved-zero bit. -/
theorem test_wf_reserved :
    ([0x0802, 0x0900, 0x1801, 0x7400, 0x7880, 0x8040, 0x8A00, 0x6001].all fun w =>
      !(Request.mk w [] []).reservedZero) = true := by decide

/-- S20: a text that SHIFTBYTE does not use. -/
theorem test_wf_text : (Request.mk 0x10A5 [0x41] []).wellFormed = false := by decide

/-- X6: WRITESTR takes no second text. -/
theorem test_wf_text2 : (Request.mk 0x9800 [0x41, 0x42] [0x43]).wellFormed = false := by decide

/-- 30_encoding.md R82: the command bytes that match no pattern. -/
theorem test_wf_bus : ([0x00, 0x03, 0x10, 0x2F, 0x31, 0x33, 0x3D, 0x3F].all fun x =>
    !(Code.bus false x).wellFormed) = true := by decide

/-! ### Decoding: words written out bit by bit from the spec's patterns -/

/-- R101 `000010000000000b`, R102 `00010000xxxxxxxx`, R103, R104 `001000000000000b`, R105 `00101000xxxxxxxx`. -/
theorem test_decode_shift :
    decode (.req ⟨0b0000100000000001, [], []⟩) = some (.shiftbit true) ∧
    decode (.req ⟨0b0001000010100101, [], []⟩) = some (.shiftbyte 0xA5) ∧
    decode (.req ⟨0b0001100000000000, [], []⟩) = some .latch ∧
    decode (.req ⟨0b0010000000000000, [], []⟩) = some (.putbit false) ∧
    decode (.req ⟨0b0010100000111100, [], []⟩) = some (.putbyte 0x3C) := by decide

/-- R123 `01000000xxxxxxxx`, R124 `01001000cccccccc`. -/
theorem test_decode_transfer :
    decode (.req ⟨0b0100000000011000, [], []⟩) = some (.command 0x18) ∧
    decode (.req ⟨0b0100100001000001, [], []⟩) = some (.writechar 0x41) := by decide

/-- R141 to R145: CLEAR, HOME, FUNCSET `01100ens00000000`, DISPSET `01101dck00000000`, ENTRYSET `011100ih00000000`. -/
theorem test_decode_commands :
    decode (.req ⟨0b0101000000000000, [], []⟩) = some .clear ∧
    decode (.req ⟨0b0101100000000000, [], []⟩) = some .home ∧
    decode (.req ⟨0b0110010000000000, [], []⟩) = some (.funcset true false false) ∧
    decode (.req ⟨0b0110001000000000, [], []⟩) = some (.funcset false true false) ∧
    decode (.req ⟨0b0110100100000000, [], []⟩) = some (.dispset false false true) ∧
    decode (.req ⟨0b0110110000000000, [], []⟩) = some (.dispset true false false) ∧
    decode (.req ⟨0b0111001000000000, [], []⟩) = some (.entryset true false) ∧
    decode (.req ⟨0b0111000100000000, [], []⟩) = some (.entryset false true) := by decide

/-- R146 `011110000aaaaaaa`, R147 `1000000000aaaaaa`, R148 `1000100liiiiiiii`, R149. -/
theorem test_decode_addresses :
    decode (.req ⟨0b0111100001001111, [], []⟩) = some (.setddram 0x4F) ∧
    decode (.req ⟨0b1000000000111111, [], []⟩) = some (.setcgram 0x3F) ∧
    decode (.req ⟨0b1000100000010011, [], []⟩) = some (.setcursor false 0x13) ∧
    decode (.req ⟨0b1000100100000101, [], []⟩) = some (.setcursor true 0x05) ∧
    decode (.req ⟨0b1001000000000000, [], []⟩) = some .defaultsetup := by decide

/-- R171, R172; a 0x00 byte does not end a text (X3). -/
theorem test_decode_texts :
    decode (.req ⟨0b1001100000000000, [0x41, 0x00, 0x42], []⟩) = some (.writestr [0x41, 0x00, 0x42]) ∧
    decode (.req ⟨0b1010000000000000, [0x48, 0x49], [0x42]⟩) = some (.writemsg [0x48, 0x49] [0x42]) := by decide

/-- R78, every pattern, and R80: with RS = 1 the same byte is data. -/
theorem test_decode_bus :
    decode (.bus false 0b00000001) = some .lcdClear ∧
    decode (.bus false 0b00000010) = some .lcdHome ∧
    decode (.bus false 0b00000110) = some (.lcdEntryModeSet true false) ∧
    decode (.bus false 0b00001001) = some (.lcdDisplaySet false false true) ∧
    decode (.bus false 0b00111000) = some (.lcdFunctionSet true false) ∧
    decode (.bus false 0b01001000) = some (.lcdCgramAddressSet 0x08) ∧
    decode (.bus false 0b11000000) = some (.lcdDdramAddressSet 0x40) ∧
    decode (.bus true 0b00000001) = some (.lcdData 0x01) := by decide

/-- 20_memory.md R57: the high byte first. -/
theorem test_word_of_bytes : wordOfBytes 0x88 0x13 = 0x8813 := by decide

/-- The table's numbering: bit 0 is the word's least significant bit. -/
theorem test_table_word :
    decodeTableWord 16 0x8905 = some (.setcursor true 0x05) ∧ decodeTableWord 8 0x0F = some (.lcdDisplaySet true true true) ∧
    decodeTableWord 8 0x10 = some (.lcdData 0x10) ∧ decodeTableWord 16 0 = none := by decide

/-! ### Acceptance: bytes, numbers of actions and durations of 95_test_vectors.md -/

/-- S1: 3 000 ns in 6 actions. -/
theorem test_shiftbit : serLevels (.shiftbit true) = some [true] ∧ load (.shiftbit true) = some (6, 3000) := by decide

/-- S3: SER = 1,0,1,0,0,1,0,1. -/
theorem test_shiftbyte :
    serLevels (.shiftbyte 0xA5) = some [true, false, true, false, false, true, false, true] ∧
    load (.shiftbyte 0xA5) = some (48, 24000) := by decide

/-- S5. -/
theorem test_latch : serLevels .latch = some [] ∧ load .latch = some (4, 2000) := by decide

/-- S8. -/
theorem test_putbit : serLevels (.putbit false) = some [false] ∧ load (.putbit false) = some (10, 5000) := by decide

/-- S12. -/
theorem test_putbyte :
    serLevels (.putbyte 0x3C) = some (msbFirst 0x3C) ∧ load (.putbyte 0x3C) = some (52, 26000) := by decide

/-- T4. -/
theorem test_command :
    serLevels (.command 0x18) = some (msbFirst 0x18) ∧ load (.command 0x18) = some (60, 30000) := by decide

/-- T5. -/
theorem test_writechar :
    serLevels (.writechar 0x41) = some (msbFirst 0x41) ∧ load (.writechar 0x41) = some (61, 80000) := by decide

/-- L1, L2. -/
theorem test_clear_home :
    serLevels .clear = some (msbFirst 0x01) ∧ load .clear = some (61, 1730000) ∧
    serLevels .home = some (msbFirst 0x02) ∧ load .home = some (61, 1730000) := by decide

/-- L4, L5, L6: e is a no-op, n is bit 3, s is bit 2. -/
theorem test_funcset :
    serLevels (.funcset true false false) = some (msbFirst 0x30) ∧
    serLevels (.funcset false true false) = some (msbFirst 0x38) ∧
    serLevels (.funcset false false true) = some (msbFirst 0x34) ∧
    load (.funcset true true true) = some (61, 130000) := by decide

/-- L9, L11. -/
theorem test_dispset :
    serLevels (.dispset true false false) = some (msbFirst 0x0C) ∧
    serLevels (.dispset false false true) = some (msbFirst 0x09) ∧
    load (.dispset true true true) = some (61, 130000) := by decide

/-- L13, L14. -/
theorem test_entryset :
    serLevels (.entryset true false) = some (msbFirst 0x06) ∧
    serLevels (.entryset false true) = some (msbFirst 0x05) ∧
    load (.entryset true true) = some (61, 130000) := by decide

/-- L18. -/
theorem test_setddram :
    serLevels (.setddram 0x7F) = some (msbFirst 0xFF) ∧ load (.setddram 0x7F) = some (61, 130000) := by decide

/-- L20. -/
theorem test_setcgram :
    serLevels (.setcgram 0x3F) = some (msbFirst 0x7F) ∧ load (.setcgram 0x3F) = some (61, 130000) := by decide

/-- L21 to L24: the index is masked, then the line is ORed in. -/
theorem test_setcursor :
    serLevels (.setcursor false 0x13) = some (msbFirst 0x83) ∧
    serLevels (.setcursor true 0x05) = some (msbFirst 0xC5) ∧
    serLevels (.setcursor true 0xFF) = some (msbFirst 0xCF) ∧
    serLevels (.setcursor false 0x10) = some (msbFirst 0x80) := by decide

/-- L25. -/
theorem test_defaultsetup :
    serLevels .defaultsetup = some (msbFirst 0x3C ++ msbFirst 0x0F ++ msbFirst 0x06) ∧
    load .defaultsetup = some (183, 390000) := ⟨rfl, rfl⟩

/-- X2. -/
theorem test_writestr :
    serLevels (.writestr [0x41, 0x42]) = some (msbFirst 0x41 ++ msbFirst 0x42) ∧
    load (.writestr [0x41, 0x42]) = some (122, 160000) := by decide

/-- X1: an empty text completes at acceptance. -/
theorem test_writestr_empty : nextField (fun t => (t.phase, t.seq)) (exec (.writestr []) postWake) = some (.ready, []) := by
  decide

/-- X4: the repositioning is always sent. -/
theorem test_writemsg_empty :
    serLevels (.writemsg [] []) = some (msbFirst 0xC0) ∧ load (.writemsg [] []) = some (61, 130000) := by decide

/-- R172: line 1, 0xC0, line 2. -/
theorem test_writemsg :
    serLevels (.writemsg [0x48] [0x42]) = some (msbFirst 0x48 ++ msbFirst 0xC0 ++ msbFirst 0x42) := by decide

/-- R172: the RS levels of its three transfers. -/
theorem test_writemsg_rs :
    nextField (fun t => t.seq.filterMap fun it => match it.action with
      | .set .rs v => some v
      | _ => none) (exec (.writemsg [0x48] [0x42]) postWake) = some [true, false, true] := by decide

/-- The controller rows append their byte (R78, R80, R218). -/
theorem test_lcd_rows :
    ([(Instr.lcdClear, (false, 0x01)), (.lcdHome, (false, 0x02)), (.lcdEntryModeSet false true, (false, 0x05)),
      (.lcdDisplaySet true false true, (false, 0x0D)), (.lcdFunctionSet false true, (false, 0x34)),
      (.lcdCgramAddressSet 0x3F, (false, 0x7F)), (.lcdDdramAddressSet 0x00, (false, 0x80)),
      (.lcdData 0x9A, (true, 0x9A))].all fun (c : Instr × Bool × Byte) =>
        decide (nextField (·.busLog) (exec c.1 postWake) = some (postWake.busLog ++ [c.2]))) = true := by decide

/-! ### Single steps -/

/-- W1, V7: the wake-up list has 183 actions and takes 20 340 000 ns. -/
theorem test_wake_list :
    State.reset.seq.length = 183 ∧ duration (State.reset.seq.map (·.action)) = 20340000 := ⟨rfl, rfl⟩

/-- The first step of the machine drives SER to bit 7 of 0x30. -/
theorem test_first_step :
    nextField (fun t => (t.trace, t.phase, t.ready)) (step State.reset) = some ([.set .ser false], .wake, false) := by decide

/-- S2: a shift into unknown stages leaves `???????1`. -/
theorem test_unknown_shift :
    Stages.unknown.shiftIn true = ⟨.unknown, .unknown, .unknown, .unknown, .unknown, .unknown, .unknown, .one⟩ := by decide

/-- S8, S9: 0xA5 shifted by one bit. -/
theorem test_shift :
    (Stages.ofByte 0xA5).shiftIn false = Stages.ofByte 0x4A ∧ (Stages.ofByte 0xA5).shiftIn true = Stages.ofByte 0x4B := by
  decide

/-- T7: E falls at 29 000, the controller takes (0, 0x01), and `last_xfer` is set. -/
theorem test_sample :
    nextField (fun t => (t.busLog.getLast?, t.lastXfer, t.pins.e)) (step enabled) =
      some (some (false, 0x01), some (20369000, 1700000), false) := by decide

/-- 30_encoding.md R82: a byte of no pattern is logged unchanged. -/
theorem test_sample_unlisted :
    nextField (fun t => (t.busLog.getLast?, (busInstructions t).getLast?))
      (step { enabled with q := Stages.ofByte 0x18 }) = some (some (false, 0x18), some none) := by decide

/-- R206: an unknown bit at the fall of E. -/
theorem test_sample_unknown : stopCode (step { enabled with q := Stages.unknown }) = some 17 := by decide

/-- F1: 29 000 ns after the fall. -/
theorem test_timing_breach : stopCode (step (rising 20398000)) = some 16 := by decide

/-- F2, F3: the boundary. -/
theorem test_timing_boundary :
    nextField (·.pins.e) (step (rising 22069000)) = some true ∧ stopCode (step (rising 22068999)) = some 16 := by decide

/-- S13, S17, S20, S21: the three refusals and their order. -/
theorem test_refusals :
    stopCode (step (withHost [.req ⟨0x0000, [], []⟩])) = some 1 ∧
    stopCode (step (withHost [.req ⟨0x0802, [], []⟩])) = some 2 ∧
    stopCode (step (withHost [.req ⟨0x10A5, [0x41], []⟩])) = some 3 ∧
    stopCode (step (withHost [.req ⟨0x0803, [0x41], []⟩])) = some 2 := by decide

/-- W6, W7: two bad configurations. -/
theorem test_bad_configuration :
    stopCode (step (State.launch { Config.default with tW1 := 250000 } [] [])) = some 4 ∧
    stopCode (step (State.launch { Config.default with pinE := 5 } [] [])) = some 4 := by decide

/-- R204, D30: the check comes before reset release, so a reset inside the first wait of a run that does not start lands
nowhere. -/
theorem test_bad_configuration_before_reset :
    stopCode (step (State.launch { Config.default with tEn := 999, tPor := 1000 } [] [500])) = some 4 ∧
    stopCode (step (State.launch { Config.default with tPor := 1000 } [] [500])) = some 5 := by decide

/-- 00_scope.md R7: another line layout and another mask reach SETCURSOR. -/
theorem test_line_layout :
    cursorAddr { Config.default with line2Base := 0x20, indexMask := 0x1F } true 0xF3 = 0x33 ∧
    cursorAddr Config.default true 0xF3 = 0x43 := by decide

/-- W4: `rst` at 20 100 000, inside the last wake-up wait. -/
theorem test_reset_in_wait :
    stopCode (step { postWake with phase := .wake, seq := [hold 250000], now := 20090000, resets := [20100000] }) =
      some 5 := by decide

/-- W5: `rst` in READY after T5. -/
theorem test_reset_in_ready :
    nextField (fun t => (t.pins, t.sr, t.now, t.seq.length))
      (step { postWake with
        pins := ⟨true, false, false, false, false, true⟩
        sr := Stages.ofByte 0x41
        resets := [20340000] }) = some (Pins.low, Stages.ofByte 0x41, 0, 183) := by decide +kernel

/-- 10_state.md R21: an idle. -/
theorem test_idle :
    nextField (fun t => (t.now, t.trace.getLast?)) (step (withHost [.idle 71000])) =
      some (20411000, some (.wait 71000)) := by decide

/-- A placed request is what the next step accepts. -/
theorem test_place_request :
    nextField (fun t => (t.phase, t.seq)) (step (State.reset.withFetchWord 16 0x1800)) =
      some (.busy, latchSeq Config.default) := by decide

/-- A placed bus byte is what the controller takes at the next step. -/
theorem test_place_bus :
    nextField (·.busLog) (step (State.reset.withFetchWord 8 0x3C)) = some [(false, 0x3C)] := by decide

/-- 00_scope.md R11: unchanged levels are dropped and changes stamped. -/
theorem test_pin_changes :
    pinChanges 0 Pins.low [.set .ser false, .wait 1000, .set .srclk true, .wait 1000, .set .srclk false] =
      [(1000, .srclk, true), (2000, .srclk, false)] := by decide

/-- R38, R7: a run at its end has an observation; a line is read by the identity bound to it. -/
theorem test_observation :
    postWake.observation.isSome = true ∧ State.reset.observation = none ∧ lineLevel enabled 3 = some true := by decide

/-- 70_reset_and_hazards.md R234: a reset in READY ends a run that still has a host action, and the run is observed; with no
reset it goes on. -/
theorem test_observation_at_reset :
    { withHost [.idle 5] with resets := [20340000] }.observation =
      some ⟨postWake.trace, postWake.busLog, postWake.pins, postWake.q, 20340000⟩ ∧
    (withHost [.idle 5]).observation = none := by decide

/-! ### Witnesses: a concrete state and operands that meet each statement's hypotheses -/

theorem witness_EncodeOfDecode : decode (.req ⟨0x8813, [], []⟩) = some (.setcursor false 0x13) := by decide

/-- One request for each clause. -/
theorem witness_RefusalOrder :
    (Request.mk 0xA800 [] []).opListed = false ∧
    ((Request.mk 0x1801 [] []).opListed = true ∧ (Request.mk 0x1801 [] []).reservedZero = false) ∧
    ((Request.mk 0x9800 [] [0x43]).opListed = true ∧ (Request.mk 0x9800 [] [0x43]).reservedZero = true ∧
      (Request.mk 0x9800 [] [0x43]).textsFit = false) ∧
    ((Request.mk 0xA000 [0x41] [0x43]).opListed = true ∧ (Request.mk 0xA000 [0x41] [0x43]).reservedZero = true ∧
      (Request.mk 0xA000 [0x41] [0x43]).textsFit = true) := by decide

theorem witness_StepRunsPresentedRequest :
    (withHost [.req ⟨0x1800, [], []⟩]).phase = .ready ∧ resetDue (withHost [.req ⟨0x1800, [], []⟩]) = none ∧
    (withHost [.req ⟨0x1800, [], []⟩]).host = .req ⟨0x1800, [], []⟩ :: [] ∧ decodeReq ⟨0x1800, [], []⟩ = .ok .latch :=
  ⟨rfl, rfl, rfl, rfl⟩

theorem witness_StepRunsSampledByte :
    enabled.phase ≠ .ready ∧ resetDue enabled = none ∧ launchViolation enabled = none ∧
    enabled.seq = ⟨.set .e false, 1700000⟩ :: [hold 1000] ∧ enabled.pins.e = true ∧ enabled.q.byte? = some 0x01 ∧
    decodeBus enabled.pins.rs 0x01 = some .lcdClear := by decide

/-- A wait, a rise of SRCLK, a rise of RCLK, and a `Set(E, 0)` that is no fall; a reset scheduled for the end of the wait is
not due. -/
theorem witness_StepPerformsTheHeadAction :
    let s (it : SeqItem) := { enabled with seq := [it, hold 1000], resets := [20370000] }
    (s (hold 1000)).phase ≠ .ready ∧ resetDue (s (hold 1000)) = none ∧ launchViolation (s (hold 1000)) = none ∧
    (s (hold 1000)).seq = ⟨.wait 1000, 0⟩ :: [hold 1000] ∧
    resetDue (s (drivePin .srclk true)) = none ∧ (s (drivePin .srclk true)).seq = ⟨.set .srclk true, 0⟩ :: [hold 1000] ∧
    Pin.srclk ≠ Pin.e ∧ enabled.pins.srclk = false ∧
    resetDue (s (drivePin .rclk true)) = none ∧ (s (drivePin .rclk true)).seq = ⟨.set .rclk true, 0⟩ :: [hold 1000] ∧
    Pin.rclk ≠ Pin.e ∧ enabled.pins.rclk = false ∧
    ({ s (drivePin .e false) with pins := Pins.low } : State).pins.e = false := by decide

theorem witness_AcceptanceFrame : encode .latch = .req ⟨0x1800, [], []⟩ ∧ postWake.phase = .ready := by decide

theorem witness_RequestsAreHeldUntilReady :
    encode .latch = .req ⟨0x1800, [], []⟩ ∧ enabled.phase ≠ .ready ∧ ∃ t, step enabled = .next t :=
  ⟨rfl, by decide, _, rfl⟩

/-- The two ends of every range of reserved codes. -/
theorem witness_ReservedOpcodeRefused :
    (withHost [.req ⟨0x0000, [], []⟩]).phase = .ready ∧ resetDue (withHost [.req ⟨0x0000, [], []⟩]) = none ∧
    (Request.mk 0x07FF [] []).word.toNat / 2048 = 0x00 ∧ (Request.mk 0x3000 [] []).word.toNat / 2048 = 0x06 ∧
    (Request.mk 0x3FFF [] []).word.toNat / 2048 = 0x07 ∧ (Request.mk 0xA800 [] []).word.toNat / 2048 = 0x15 ∧
    (Request.mk 0xFFFF [] []).word.toNat / 2048 = 0x1F := by decide

theorem witness_ReservedFieldRefused :
    (withHost [.req ⟨0x7400, [], []⟩]).phase = .ready ∧ resetDue (withHost [.req ⟨0x7400, [], []⟩]) = none ∧
    (Request.mk 0x7400 [] []).opListed = true ∧ (Request.mk 0x7400 [] []).reservedZero = false := by decide

theorem witness_TextOperandRefused :
    (withHost [.req ⟨0x10A5, [0x41], []⟩]).phase = .ready ∧ resetDue (withHost [.req ⟨0x10A5, [0x41], []⟩]) = none ∧
    (Request.mk 0x10A5 [0x41] []).opListed = true ∧ (Request.mk 0x10A5 [0x41] []).reservedZero = true ∧
    (Request.mk 0x10A5 [0x41] []).textsFit = false := by decide

/-- A step refused for each of the three causes, and for a reset in the last nanosecond of a wait. -/
theorem witness_RefusalsHaveTheirCauses :
    step { enabled with resets := [0] } = .refused (.resetDuringOperation 0) ∧
    step { enabled with seq := [hold 1000], resets := [20369999] } = .refused (.resetDuringOperation 20369999) ∧
    step (State.launch { Config.default with tS := 0 } [] []) = .refused (.badConfiguration .tS) ∧
    step (withHost [.req ⟨0x0000, [], []⟩]) = .refused (.reservedOpcode 0x0000) := ⟨rfl, rfl, rfl, rfl⟩

/-- An idle of no time with no reset, and one with a reset at its very end. -/
theorem witness_IdleLetsTimePass :
    let s := withHost [.idle 0]
    let u := { withHost [.idle 1000] with resets := [20341000] }
    (s.phase = .ready ∧ resetDue s = none ∧ (∀ r, s.resets.head? = some r → s.now + 0 ≤ r) ∧ s.host = .idle 0 :: []) ∧
    (u.phase = .ready ∧ resetDue u = none ∧ (∀ r, u.resets.head? = some r → u.now + 1000 ≤ r) ∧
      u.host = .idle 1000 :: []) :=
  ⟨⟨rfl, rfl, fun _ h => (by cases h), rfl⟩, rfl, rfl, fun _ h => (by cases h; decide), rfl⟩

/-- An idle cut one nanosecond before its end. -/
theorem witness_ResetCutsAnIdle :
    let s := { withHost [.idle 1000] with resets := [20340999] }
    s.phase = .ready ∧ s.host = .idle 1000 :: [] ∧ s.resets = 20340999 :: [] ∧ s.now < 20340999 ∧
      20340999 < s.now + 1000 := by decide

theorem witness_ReadyWaits : postWake.phase = .ready ∧ resetDue postWake = none ∧ postWake.host = [] := by decide

/-- The premise of SHIFTBIT, SHIFTBYTE, LATCH, PUTBIT and PUTBYTE, and of those two compositions: met post-wake, and with SER
and RS high and a reset one nanosecond after the end of the longest of them. -/
theorem witness_ShiftCompletes :
    ReadyQuiet postWake (26 * postWake.config.tS) ∧
    ReadyQuiet { postWake with pins := ⟨true, false, false, false, false, true⟩, resets := [20366001] }
      (26 * postWake.config.tS) :=
  ⟨⟨rfl, fun _ h => (by cases h), rfl⟩, rfl, fun _ h => (by cases h; decide), rfl⟩

/-- The premises of COMMAND, WRITECHAR, the named commands and the texts, of TextIsLoggedInOrder and of the compositions: met
post-wake for any time, and at the first nanosecond of F2 where a transfer may start, with a reset one nanosecond after the
end of DEFAULTSETUP. -/
theorem witness_TransferCompletes :
    (∀ d, ReadyQuiet postWake d) ∧ TransferSettled postWake ∧ LinesAtDefault postWake.config ∧
    (let s := { postWake with lastXfer := some (20369000, 1700000), now := 22041000, resets := [22431001] };
      ReadyQuiet s (3 * (transferTime s.config + s.config.tSetter)) ∧ TransferSettled s) :=
  ⟨fun _ => ⟨rfl, fun _ h => (by cases h), rfl⟩, by unfold TransferSettled; decide, ⟨rfl, rfl, rfl, rfl⟩,
    ⟨rfl, fun _ h => (by cases h; decide), rfl⟩, by unfold TransferSettled; decide⟩

/-- The second clause of WritestrCompletes, where no transfer may start: right after a raw COMMAND 0x01. -/
theorem witness_WritestrCompletes_empty :
    let s := { postWake with lastXfer := some (20339000, 1700000) }
    s.phase = .ready ∧ ¬ TransferSettled s := ⟨rfl, by unfold TransferSettled; decide⟩

/-- The third premise of TextIsLoggedInOrder: an empty text ends, in one run. -/
theorem witness_TextIsLoggedInOrder : Completes (.writestr []) postWake { postWake with seq := [] } := ⟨_, rfl, rfl⟩

/-- Both sides of CursorReachesExactlyTheVisibleCells at the edges of the windows. -/
theorem witness_CursorReachesExactlyTheVisibleCells :
    let c := Config.default
    LinesAtDefault c ∧ cursorAddr c false 0x0F = 0x0F ∧ ddramVisible c 0x0F = true ∧ cursorAddr c true 0xF0 = 0x40 ∧
    ddramVisible c 0x40 = true ∧ ddramVisible c 0x10 = false ∧ ddramVisible c 0x50 = false :=
  ⟨⟨rfl, rfl, rfl, rfl⟩, by decide⟩

theorem witness_BusBytesAreTaken :
    encode .lcdHome = .bus false 0x02 ∧ encode (.lcdFunctionSet true true) = .bus false 0x3C ∧
    encode (.lcdData 0x02) = .bus true 0x02 := by decide

/-- A step at a fall of E, and one that is none. -/
theorem witness_BusLogGrowsOnlyAtAFallOfE :
    resetDue enabled = none ∧ (∃ t, step enabled = .next t) ∧ resetDue postWake = none ∧ ∃ t, step postWake = .next t :=
  ⟨rfl, ⟨_, rfl⟩, rfl, _, rfl⟩

/-- A step in which SRCLK rises. -/
theorem witness_StagesShiftExactlyOnSrclkRise :
    nextField (·.pins.srclk) (step { enabled with seq := [drivePin .srclk true, hold 1000] }) = some true := by decide

/-- A step in which RCLK rises. -/
theorem witness_OutputsLatchExactlyOnRclkRise :
    nextField (·.pins.rclk) (step { enabled with seq := [drivePin .rclk true, hold 1000] }) = some true := by decide

/-- F2's and F3's times: the check passes, and fails by one nanosecond. -/
theorem witness_TimingFaultAtEnableRise :
    ((rising 22069000).phase ≠ .ready ∧ resetDue (rising 22069000) = none ∧ launchViolation (rising 22069000) = none ∧
      (rising 22069000).seq = ⟨.set .e true, 0⟩ :: [hold 1000, ⟨.set .e false, 100000⟩, hold 1000] ∧
      1700000 ≤ (rising 22069000).now - 20369000) ∧
    (rising 22068999).lastXfer = some (20369000, 1700000) ∧ (rising 22068999).now - 20369000 < 1700000 := by decide

/-- Not every stage needs to be unknown. -/
theorem witness_UnknownBusValueIsNeverReached :
    let s := { enabled with q := { Stages.ofByte 0x01 with s7 := .unknown } }
    s.phase ≠ .ready ∧ resetDue s = none ∧ launchViolation s = none ∧ s.pins.e = true ∧
      s.seq = ⟨.set .e false, 1700000⟩ :: [hold 1000] ∧ ∀ x, s.q ≠ Stages.ofByte x := by decide

/-- A step for each fault. -/
theorem witness_FaultsOnlyAtEnableEdges :
    (∃ f, step (rising 20398000) = .fault f) ∧ ∃ f, step { enabled with q := Stages.unknown } = .fault f :=
  ⟨⟨_, rfl⟩, _, rfl⟩

/-- The default configuration, and one with a power-on wait; no reset, and one a nanosecond after the end. -/
theorem witness_WakeUpRunsToReady :
    let s := State.launch Config.default [] [20340001]
    ConfigValid Config.default ∧ ConfigValid { Config.default with tPor := 1 } ∧ s.pins = Pins.low ∧ s.phase = .wake ∧
    s.seq = wakeSeq s.config ∧ s.lastXfer = none ∧ s.now = 0 ∧ s.trace = [] ∧ (∀ time, ResetAfter State.reset time) ∧
    ResetAfter s (s.config.tPor + 3 * (29 * s.config.tS + s.config.tEn) + 2 * s.config.tW1 + s.config.tW3) :=
  ⟨by simp [ConfigValid, Config.default], by simp [ConfigValid, Config.default], rfl, rfl, rfl, rfl, rfl, rfl,
    fun _ _ h => (by cases h), fun _ h => (by cases h; decide)⟩

theorem witness_ResetInReadyStartsANewRun :
    let s := { postWake with resets := [20340000] }
    s.phase = .ready ∧ s.resets = 20340000 :: [] ∧ 20340000 ≤ s.now := by decide

/-- `rst` between two actions, and in the last nanosecond of a wait. -/
theorem witness_ResetDuringOperationRefused :
    let s := { enabled with resets := [20369000] }
    let u := { enabled with seq := [hold 1000], resets := [20369999] }
    (s.phase ≠ .ready ∧ launchViolation s = none ∧ s.resets = 20369000 :: [] ∧ 20369000 ≤ s.now) ∧
    (u.phase ≠ .ready ∧ launchViolation u = none ∧ u.resets = 20369999 :: [] ∧ u.seq = ⟨.wait 1000, 0⟩ :: [] ∧
      20369999 < u.now + 1000) := by decide

/-- A configuration that breaks R8 by one nanosecond, with a reset at once, and the default. -/
theorem witness_BadConfigurationRefusedAtLaunch :
    let s := State.launch { Config.default with tEn := 999 } [] [0]
    (State.reset.phase = .wake ∧ State.reset.trace = [] ∧ ConfigValid State.reset.config) ∧
    (s.phase = .wake ∧ s.trace = [] ∧ ¬ ConfigValid s.config ∧ Breaks s.config .tEn) :=
  ⟨⟨rfl, rfl, by simp [ConfigValid, State.reset, State.launch, Config.default]⟩,
    rfl, rfl, by simp [ConfigValid, State.launch], by simp [Breaks, State.launch]⟩

/-- For StepKeepsLinesSafe and NothingMovesWhileEnabled: a state with E high, and a step from it. -/
theorem witness_SafeLines : SafeLines enabled ∧ enabled.pins.e = true ∧ ∃ t, step enabled = .next t :=
  ⟨⟨by decide, by decide⟩, rfl, _, rfl⟩

/-- For NamedOperationsKeepTheSettle and NamedOperationsNeverFault: a state, a host program with no raw COMMAND, and a step
that accepts from it. -/
theorem witness_SafeTiming :
    let s := withHost [.req ⟨0x5000, [], []⟩, .idle 5]
    SafeTiming s ∧ (s.phase = .ready → resetDue s = none → ∀ a, s.host.head? = some a → notCommand a = true) ∧
      s.host.all notCommand = true ∧ ∃ t, step s = .next t :=
  ⟨⟨by decide, by decide⟩, fun _ _ _ h => by cases h; decide, by decide, _, rfl⟩

/-- For NamedOperationsKeepTheSettle: a BUSY step, and a reset in READY, with a raw COMMAND next in the host program. -/
theorem witness_SafeTiming_heldCommand :
    let s := { enabled with seq := [hold 1700000], pins := Pins.low, host := [.req ⟨0x4001, [], []⟩] }
    let u := { withHost [.req ⟨0x4001, [], []⟩] with resets := [20340000] }
    (SafeTiming s ∧ s.phase ≠ .ready ∧ s.host.all notCommand = false ∧ ∃ t, step s = .next t) ∧
    (SafeTiming u ∧ resetDue u = some 20340000 ∧ u.host.all notCommand = false ∧ ∃ t, step u = .next t) :=
  ⟨⟨⟨by decide, by decide⟩, by decide, by decide, _, rfl⟩, ⟨by decide, by decide⟩, by decide, by decide, _, rfl⟩

/-- A state whose lines agree with its trace, and a step from it; NoStepChangesAParameter has no other hypothesis. -/
theorem witness_LinesAreWhatTheTraceSet :
    let s := withHost [.idle 5]
    s.pins = levelsAfter Pins.low s.trace ∧ ∃ t, step s = .next t :=
  ⟨rfl, _, rfl⟩

/-- The four ways a step treats time: unchanged, a `Set`, a wait, and a new run. -/
theorem witness_TimeGrowsOnlyByWaits :
    (∃ t, step postWake = .next t) ∧ (∃ t, step enabled = .next t) ∧ (∃ t, step (withHost [.idle 5]) = .next t) ∧
    ∃ t, step { postWake with resets := [0] } = .next t :=
  ⟨⟨_, rfl⟩, ⟨_, rfl⟩, ⟨_, rfl⟩, _, rfl⟩

theorem witness_ReadyLinesAreQuiet :
    nextField (·.phase) (run 183 (State.launch Config.default [] [])) = some .ready := by decide +kernel

end Sys2Proof.Tests
end

section
/-! SUPPORT. Proofs of the statements about the state and one step (10_state.md): acceptance and its frame, the step by
phase, what a step does to the lines, time and trace, the idle, and the reset values. -/

namespace Sys2Proof.Proofs

open Sys2Proof.Machine Sys2Proof.Laws

/-! ### Acceptance of a request -/

/-- What is encoded as a request means acceptance of an action list; the other instructions are encoded as bus bytes. -/
theorem exec_request {i : Instr} {r : Request} (h : encode i = .req r) (s : State) :
    ∃ items, exec i s = accept items s := by
  cases i
  case lcdClear | lcdHome | lcdEntryModeSet | lcdDisplaySet | lcdFunctionSet | lcdCgramAddressSet | lcdDdramAddressSet |
      lcdData => cases h
  all_goals exact ⟨_, rfl⟩

/-- In READY acceptance loads the list and changes seq and phase only (10_state.md R26, R27). -/
theorem accept_ready (items : List SeqItem) {s : State} (hp : s.phase = .ready) :
    accept items s = .next { s with seq := items, phase := if items = [] then .ready else .busy } := by
  simp only [accept_next, if_pos hp, List.isEmpty_iff]

/-- Outside READY nothing is accepted (10_state.md R23). -/
theorem accept_not_ready (items : List SeqItem) {s : State} (hp : s.phase ≠ .ready) : accept items s = .next s := by
  rw [accept_next, if_neg hp]

/-- Settles O8: a request is one acceptance, which in READY writes seq and phase alone. -/
theorem acceptanceFrame : Obligations.AcceptanceFrame := by
  intro i r s hi hp
  obtain ⟨items, hx⟩ := exec_request hi s
  exact ⟨items, hx.trans (accept_ready items hp)⟩

/-- Outside READY every step leaves the host program as it is (10_state.md R23). -/
theorem step_keeps_host {s t : State} (hp : s.phase ≠ .ready) (h : step s = .next t) : t.host = s.host := by
  obtain ⟨-, -, hr, -⟩ | ⟨-, hr, -⟩ | ⟨-, hr, -⟩ | ⟨-, hr, -⟩ | ⟨-, -, -, rfl⟩ | ⟨-, -, d, need, rest, -, rfl⟩ |
    ⟨-, -, p, v, need, rest, -, -, -, rfl⟩ | ⟨-, -, need, rest, x, -, -, -, rfl⟩ := step_next_cases h
  · exact absurd hr hp
  · exact absurd hr hp
  · exact absurd hr hp
  · exact absurd hr hp
  all_goals rfl

/-- Settles O9: outside READY acceptance changes nothing, and only READY takes a host action. -/
theorem requestsAreHeldUntilReady : Obligations.RequestsAreHeldUntilReady := by
  refine ⟨fun i r s hi hp => ?_, fun s t hp h => step_keeps_host hp h⟩
  obtain ⟨items, hx⟩ := exec_request hi s
  exact hx.trans (accept_not_ready items hp)

/-! ### A step by phase -/

/-- In READY with no reset due a step takes the next host action (10_state.md R21). -/
theorem step_ready {s : State} (hp : s.phase = .ready) (hd : resetDue s = none) : step s = takeHostAction s := by
  have hl : launchViolation s = none := by simp [launchViolation, hp]
  simp only [step, hl, hd, runPhase, hp]

/-- A reset due in READY starts a new run (70_reset_and_hazards.md R234). -/
theorem step_ready_reset {s : State} {time : Nat} (hp : s.phase = .ready) (hd : resetDue s = some time) :
    step s = .next (restart s) := by
  have hl : launchViolation s = none := by simp [launchViolation, hp]
  simp only [step, hl, hd, takeReset, if_pos hp]

/-- In WAKE and BUSY, past the launch check and with no reset due, a step performs the head action (10_state.md R27). -/
theorem step_running {s : State} {it : SeqItem} {rest : List SeqItem} (hp : s.phase ≠ .ready)
    (hd : resetDue s = none) (hl : launchViolation s = none) (hq : s.seq = it :: rest) : step s = perform it s := by
  obtain ⟨p, hv, -⟩ | ⟨-, time, hr, -⟩ | ⟨-, -, hr, -⟩ | ⟨-, -, -, hs⟩ := step_cases s
  · rw [hl] at hv; cases hv
  · rw [hd] at hr; cases hr
  · exact absurd hr hp
  · simp only [hs, runSequence, hq]

/-- The head action leaves the list and enters the trace, and READY follows the last one (10_state.md R26, R27). -/
theorem retire_of_seq {s : State} {it : SeqItem} {rest : List SeqItem} (hq : s.seq = it :: rest) (a : Action) :
    s.retire a = { s with
      seq := rest, phase := if rest = [] then .ready else s.phase, trace := s.trace ++ [a] } := by
  simp only [State.retire, hq, List.tail_cons, List.isEmpty_iff]

/-- A rising edge of line l is a drive of l to 1 from 0. -/
theorem rises_line_iff (t : Pins) (p l : Pin) (v : Bool) :
    (p = l ∧ t.rises p v = true) ↔ (p = l ∧ v = true ∧ t.get l = false) := by
  refine and_congr_right fun hp => ?_
  subst hp
  cases v <;> simp [Pins.rises]

/-- Driving any line but E, or E from 0 to 0, retires the action and drives the line: no timing check, no sampling
(10_state.md R25; 60_exceptions.md R205, R218). -/
theorem perform_set_not_e_edge {s : State} {p : Pin} {v : Bool} (need : Nat)
    (he : p ≠ .e ∨ (v = false ∧ s.pins.e = false)) :
    perform ⟨.set p v, need⟩ s = .next ((s.retire (.set p v)).setPin p v) := by
  obtain ⟨rfl, hf, -⟩ | ⟨-, rfl, rfl, -⟩ | ⟨-, -, h⟩ := performSet_cases p v need s
  · obtain he | ⟨rfl, he⟩ := he
    · exact absurd rfl he
    · simp [Pins.falls, Pins.get, he] at hf
  · simp at he
  · exact h

/-- Settles O22: the step is `perform` of the head action, which is retired with its wait or its line. -/
theorem stepPerformsTheHeadAction : Obligations.StepPerformsTheHeadAction := by
  intro s need rest hp hd hl
  refine ⟨fun d hq => ?_, fun p v hq he => ?_⟩
  · rw [step_running hp hd hl hq]
    simp only [perform, performWait, retire_of_seq hq]
  · rw [step_running hp hd hl hq, perform_set_not_e_edge need he, retire_of_seq hq]
    simp only [State.setPin, srAfter, qAfter, rises_line_iff]
    rfl

/-- Settles O6: the READY step presents the request, and the decoder gives its meaning. -/
theorem stepRunsPresentedRequest : Obligations.StepRunsPresentedRequest := by
  intro s r rest i hp hd hh hi
  simp only [step_ready hp hd, takeHostAction, hh, presentRequest, hi]

/-! ### What a step does to the lines, time and trace -/

/-- The lines, `now` and the trace change together: not at all; by one `Set`; by one `Wait`; or in a new run
(10_state.md R25, R35). -/
theorem step_lines_time_trace {s t : State} (h : step s = .next t) :
    (t.pins = s.pins ∧ t.now = s.now ∧ t.trace = s.trace) ∨
    (∃ p v, t.pins = s.pins.drive p v ∧ t.now = s.now ∧ t.trace = s.trace ++ [.set p v]) ∨
    (∃ d, t.pins = s.pins ∧ t.now = s.now + d ∧ t.trace = s.trace ++ [.wait d]) ∨
    (s.phase = .ready ∧ t = restart s) := by
  obtain ⟨time, -, hp, rfl⟩ | ⟨-, -, -, rfl⟩ | ⟨-, -, d, rest, -, rfl⟩ | ⟨-, -, r, rest, i, items, -, -, -, rfl⟩ |
    ⟨-, -, -, rfl⟩ | ⟨-, -, d, need, rest, -, rfl⟩ | ⟨-, -, p, v, need, rest, -, -, -, rfl⟩ |
    ⟨-, -, need, rest, x, -, -, -, rfl⟩ := step_next_cases h
  · exact .inr (.inr (.inr ⟨hp, rfl⟩))
  · exact .inl ⟨rfl, rfl, rfl⟩
  · exact .inr (.inr (.inl ⟨_, rfl, rfl, rfl⟩))
  · exact .inl ⟨rfl, rfl, rfl⟩
  · exact .inl ⟨rfl, rfl, rfl⟩
  · exact .inr (.inr (.inl ⟨d, rfl, rfl, rfl⟩))
  · exact .inr (.inl ⟨p, v, rfl, rfl, rfl⟩)
  · exact .inr (.inl ⟨.e, false, rfl, rfl, rfl⟩)

/-- Settles O58, by the four ways a step treats the trace. -/
theorem timeGrowsOnlyByWaits : Obligations.TimeGrowsOnlyByWaits := by
  refine ⟨fun c host resets => ⟨rfl, rfl⟩, fun s t h => ?_⟩
  obtain ⟨-, hn, ht⟩ | ⟨p, v, -, hn, ht⟩ | ⟨d, -, hn, ht⟩ | ⟨hp, rfl⟩ := step_lines_time_trace h
  · exact .inl ⟨hn, ht⟩
  · exact .inr (.inl ⟨p, v, hn, ht⟩)
  · exact .inr (.inr (.inl ⟨d, hn, ht⟩))
  · exact .inr (.inr (.inr ⟨hp, rfl, rfl, rfl⟩))

/-- The levels after two lists, one after the other. -/
theorem levelsAfter_append (p : Pins) (as bs : List Action) :
    levelsAfter p (as ++ bs) = levelsAfter (levelsAfter p as) bs := by
  induction as generalizing p with
  | nil => rfl
  | cons a as ih => cases a <;> exact ih _

/-- Settles O59, by the four ways a step treats the trace, each read by `levelsAfter`. -/
theorem linesAreWhatTheTraceSet : Obligations.LinesAreWhatTheTraceSet := by
  intro s t hs h
  obtain ⟨hp, -, ht⟩ | ⟨p, v, hp, -, ht⟩ | ⟨d, hp, -, ht⟩ | ⟨-, rfl⟩ := step_lines_time_trace h
  · rw [hp, ht, hs]
  · rw [hp, ht, hs, levelsAfter_append]; rfl
  · rw [hp, ht, hs, levelsAfter_append]; rfl
  · rfl

/-- Settles O60, case by case over what a step can do. -/
theorem noStepChangesAParameter : Obligations.NoStepChangesAParameter := by
  intro s t h
  obtain ⟨time, -, -, rfl⟩ | ⟨-, -, -, rfl⟩ | ⟨-, -, d, rest, -, rfl⟩ | ⟨-, -, r, rest, i, items, -, -, -, rfl⟩ |
    ⟨-, -, -, rfl⟩ | ⟨-, -, d, need, rest, -, rfl⟩ | ⟨-, -, p, v, need, rest, -, -, -, rfl⟩ |
    ⟨-, -, need, rest, x, -, -, -, rfl⟩ := step_next_cases h
  all_goals rfl

/-! ### Idle and reset -/

/-- In READY with no reset due an idle is taken, and as much of it passes as no reset cuts (10_state.md R21). -/
theorem step_idle {s : State} {d : Nat} {rest : List HostAction} (hp : s.phase = .ready) (hd : resetDue s = none)
    (hh : s.host = .idle d :: rest) : step s = .next
      { s with host := rest, now := s.now + idleSpan s d, trace := s.trace ++ [.wait (idleSpan s d)] } := by
  rw [step_ready hp hd]
  simp only [takeHostAction, hh]
  rfl

/-- An idle that ends before the next reset, or with it, lasts its whole time (10_state.md R21). -/
theorem idleSpan_whole {s : State} {d : Nat} (h : ∀ r, s.resets.head? = some r → s.now + d ≤ r) : idleSpan s d = d := by
  unfold idleSpan
  split
  · rename_i r later hr
    have hle := h r (by rw [hr]; rfl)
    omega
  · rfl

/-- An idle that the next reset falls inside lasts until the reset (log entry 5). -/
theorem idleSpan_cut {s : State} {d time : Nat} {later : List Nat} (hr : s.resets = time :: later)
    (hlt : time < s.now + d) : idleSpan s d = time - s.now := by
  simp only [idleSpan, hr]
  omega

/-- Settles O14: no reset cuts the idle, so its whole span passes. -/
theorem idleLetsTimePass : Obligations.IdleLetsTimePass := by
  intro s d rest hp hd hlate hh
  rw [step_idle hp hd hh, idleSpan_whole hlate]

/-- In READY a reset is not due before its time. -/
theorem resetDue_ready_before {s : State} {time : Nat} {later : List Nat} (hp : s.phase = .ready)
    (hr : s.resets = time :: later) (hlt : s.now < time) : resetDue s = none := by
  have hn : ¬ time ≤ s.now := by omega
  simp [resetDue, hr, hp, hn]

/-- A reset is due once its time has come. -/
theorem resetDue_reached {s : State} {time : Nat} {later : List Nat} (hr : s.resets = time :: later)
    (hle : time ≤ s.now) : resetDue s = some time := by
  simp [resetDue, hr, hle]

/-- A reset due in READY ends the run, with the state at that instant observed (70_reset_and_hazards.md R234). -/
theorem observation_ready_reset {s : State} {time : Nat} (hp : s.phase = .ready) (hd : resetDue s = some time) :
    s.observation = some ⟨s.trace, s.busLog, s.pins, s.q, s.now⟩ := by
  simp [State.observation, State.runEnded, State.ready, hp, hd]

/-- Settles O15: the cut idle brings `now` to the reset's time, where the reset is due and starts the new run. -/
theorem resetCutsAnIdle : Obligations.ResetCutsAnIdle := by
  intro s d time rest later hp hh hr hafter hinside
  let u : State := { s with host := rest, now := time, trace := s.trace ++ [.wait (time - s.now)] }
  have hstep : step s = .next u := by
    rw [step_idle hp (resetDue_ready_before hp hr hafter) hh, idleSpan_cut hr hinside,
      Nat.add_sub_of_le hafter.le]
  have hdue : resetDue u = some time := resetDue_reached hr le_rfl
  refine ⟨u, hstep, rfl, observation_ready_reset hp hdue, ?_⟩
  rw [step_ready_reset (by exact hp) hdue]
  simp [restart, u, hr, Pins.low]

/-- Settles O46: every value is the one `State.launch` and `Config.default` write. -/
theorem resetValues : Obligations.ResetValues :=
  ⟨rfl, rfl, rfl, rfl, rfl, rfl, rfl, rfl, rfl, rfl, rfl, rfl, rfl, rfl, rfl, rfl, rfl, rfl⟩

end Sys2Proof.Proofs
end

section
/-! SUPPORT. Proofs of the statements about the encoding (30_encoding.md): the request decoder's masks against the field
lists, the order of its refusals, the round trip in both directions, and the refusals a step raises by name. -/

namespace Sys2Proof.Proofs

open Sys2Proof.Machine Sys2Proof.Laws

/-! ### The fields of a request word as numbers (R71) -/

theorem opNumber_eq (r : Request) : r.opNumber = (opOf r.word).toNat := by
  have h := r.word.isLt
  rw [opOf, BitVec.extractLsb'_toNat, Nat.shiftRight_eq_div_pow, Request.opNumber]
  omega

theorem fNumber_eq (r : Request) : r.fNumber = (fOf r.word).toNat := by
  rw [fOf, BitVec.extractLsb'_toNat, Nat.shiftRight_eq_div_pow, Request.fNumber]

theorem aNumber_eq (r : Request) : r.aNumber = (aOf r.word).toNat := by
  rw [aOf, BitVec.extractLsb'_toNat, Nat.shiftRight_zero, Request.aNumber]

theorem opListed_iff (r : Request) : r.opListed = true ↔
    (1 ≤ (opOf r.word).toNat ∧ (opOf r.word).toNat ≤ 5) ∨ (8 ≤ (opOf r.word).toNat ∧ (opOf r.word).toNat ≤ 0x14) := by
  rw [Request.opListed, opNumber_eq, decide_eq_true_eq]

theorem word_eq_zero_iff (w : ReqWord) : w = 0 ↔ opOf w = 0 ∧ fOf w = 0 ∧ aOf w = 0 := by
  refine ⟨fun h => by subst h; exact ⟨rfl, rfl, rfl⟩, fun ⟨ho, hf, ha⟩ => ?_⟩
  rw [← requestWord_fields w, ho, hf, ha]
  rfl

/-! ### The reserved-zero mask, field by field (R74, R77) -/

theorem opOf_rzMask (op : BitVec 5) : opOf (rzMask op) = 0 := by revert op; decide

theorem aOf_rzMask (op : BitVec 5) : aOf (rzMask op) =
    if op.toNat ∈ [0x01, 0x04] then 0xFE
    else if op.toNat ∈ [0x03, 0x0A, 0x0B, 0x0C, 0x0D, 0x0E, 0x12, 0x13, 0x14] then 0xFF
    else if op.toNat = 0x0F then 0x80
    else if op.toNat = 0x10 then 0xC0
    else 0 := by
  revert op; decide

/-- No reserved bit lies in OP, so the masked word is 0 when F and A are clear under their parts of the mask. -/
theorem and_rzMask_eq_zero_iff (w : ReqWord) (op : BitVec 5) :
    w &&& rzMask op = 0 ↔ fOf w &&& fOf (rzMask op) = 0 ∧ aOf w &&& aOf (rzMask op) = 0 := by
  have hand : opOf (w &&& rzMask op) = opOf w &&& opOf (rzMask op) := BitVec.extractLsb'_and
  rw [word_eq_zero_iff, hand, opOf_rzMask]
  simp [fOf, aOf, BitVec.extractLsb'_and]

/-- The mask's part in F is what R74 lists for F. -/
theorem fOf_rzMask_clear_iff (op : BitVec 5) (f : BitVec 3)
    (hop : (1 ≤ op.toNat ∧ op.toNat ≤ 5) ∨ (8 ≤ op.toNat ∧ op.toNat ≤ 0x14)) :
    f &&& fOf (rzMask op) = 0 ↔ (op.toNat ∈ [0x0C, 0x0D, 0x0E, 0x11] ∨ f.toNat = 0) ∧
      (op.toNat = 0x0E → f.toNat < 4) ∧ (op.toNat = 0x11 → f.toNat < 2) := by
  revert op f; decide

/-- The four masks of A, as bounds on the argument's number. -/
theorem arg_mask_clear_iff (a : Byte) :
    (a &&& 0xFE = 0 ↔ a.toNat < 2) ∧ (a &&& 0xFF = 0 ↔ a.toNat = 0) ∧ (a &&& 0x80 = 0 ↔ a.toNat < 128) ∧
      (a &&& 0xC0 = 0 ↔ a.toNat < 64) := by
  revert a; decide

/-- The mask's part in A is what R74 lists for A. -/
theorem aOf_rzMask_clear_iff (op : BitVec 5) (a : Byte) :
    a &&& aOf (rzMask op) = 0 ↔ (op.toNat ∈ [0x01, 0x04] → a.toNat < 2) ∧
      (op.toNat ∈ [0x03, 0x0A, 0x0B, 0x0C, 0x0D, 0x0E, 0x12, 0x13, 0x14] → a.toNat = 0) ∧
      (op.toNat = 0x0F → a.toNat < 128) ∧ (op.toNat = 0x10 → a.toNat < 64) := by
  obtain ⟨hFE, hFF, h80, hC0⟩ := arg_mask_clear_iff a
  rw [aOf_rzMask]
  split_ifs with hbit hzero hddram hcgram
  · rw [hFE]
    obtain h | h : op.toNat = 1 ∨ op.toNat = 4 := by simpa using hbit
    all_goals simp [h]
  · rw [hFF]
    simp only [List.mem_cons, List.not_mem_nil, or_false] at hbit hzero ⊢
    omega
  · rw [h80]; simp [hddram]
  · rw [hC0]; simp [hcgram]
  · simp [hbit, hzero, hddram, hcgram]

/-- For a listed operation code the field list of R74 and the mask of R77 are one check. -/
theorem reservedZero_iff (r : Request) (h : r.opListed = true) :
    r.reservedZero = true ↔ r.word &&& rzMask (opOf r.word) = 0 := by
  rw [and_rzMask_eq_zero_iff, fOf_rzMask_clear_iff _ _ ((opListed_iff r).mp h), aOf_rzMask_clear_iff]
  simp only [Request.reservedZero, opNumber_eq, fNumber_eq, aNumber_eq, Bool.and_eq_true, Bool.or_eq_true,
    Bool.not_eq_true', decide_eq_true_eq, decide_eq_false_iff_not, beq_iff_eq, beq_eq_false_iff_ne, imp_iff_not_or,
    ne_eq]
  exact ⟨fun ⟨⟨⟨⟨⟨⟨hf, hbit⟩, hzero⟩, hentry⟩, hddram⟩, hcgram⟩, hcursor⟩ =>
      ⟨⟨hf, hentry, hcursor⟩, hbit, hzero, hddram, hcgram⟩,
    fun ⟨⟨hf, hentry, hcursor⟩, hbit, hzero, hddram, hcgram⟩ =>
      ⟨⟨⟨⟨⟨⟨hf, hbit⟩, hzero⟩, hentry⟩, hddram⟩, hcgram⟩, hcursor⟩⟩

/-! ### The three checks of the request decoder (R75 to R77) -/

/-- The operation code alone decides whether an operation is selected. -/
theorem selectOp_isSome (op : BitVec 5) (f : BitVec 3) (a : Byte) (t1 t2 : Text) : (selectOp op f a t1 t2).isSome =
    decide ((1 ≤ op.toNat ∧ op.toNat ≤ 5) ∨ (8 ≤ op.toNat ∧ op.toNat ≤ 0x14)) := by
  have hop : (selectOp op f a t1 t2).isSome = (selectOp op 0 0 [] []).isSome := by
    unfold selectOp; split <;> rfl
  rw [hop]
  clear hop
  revert op; decide

theorem opListed_eq (r : Request) :
    r.opListed = (selectOp (opOf r.word) (fOf r.word) (aOf r.word) r.text1 r.text2).isSome := by
  rw [selectOp_isSome, Request.opListed, opNumber_eq]

theorem textsOk_eq_textsFit (r : Request) : textsOk (opOf r.word) r.text1 r.text2 = r.textsFit := by
  unfold textsOk Request.textsFit
  rw [opNumber_eq]
  split
  · rw [if_pos ‹_›]
  · rw [if_neg (by omega), if_pos ‹_›]
  · rw [if_neg ‹_›, if_neg ‹_›]

theorem wellFormed_iff (r : Request) :
    r.wellFormed = true ↔ r.opListed = true ∧ r.reservedZero = true ∧ r.textsFit = true := by
  simp only [Request.wellFormed, Bool.and_eq_true, and_assoc]

/-- An unlisted operation code ends the decoding at the first check. -/
theorem decodeReq_unlisted {r : Request} (h : r.opListed = false) : decodeReq r = .error .reservedOpcode := by
  rw [opListed_eq, Option.isSome_eq_false_iff, Option.isNone_iff_eq_none] at h
  simp only [decodeReq, h]

/-- With a listed operation code the other two checks decide, in the words of WellFormed.lean. -/
theorem decodeReq_listed {r : Request} (h : r.opListed = true) :
    ∃ i, selectOp (opOf r.word) (fOf r.word) (aOf r.word) r.text1 r.text2 = some i ∧
      decodeReq r = if r.reservedZero = false then .error .reservedField
        else if r.textsFit then .ok i else .error .textOperand := by
  have hz := reservedZero_iff r h
  rw [opListed_eq, Option.isSome_iff_exists] at h
  obtain ⟨i, hi⟩ := h
  refine ⟨i, hi, ?_⟩
  simp only [decodeReq, hi, ne_eq, ← hz, Bool.not_eq_true, textsOk_eq_textsFit]

/-- Settles O4: each check is that of WellFormed.lean, and the decoder makes them in this order. -/
theorem refusalOrder : Obligations.RefusalOrder := by
  refine fun r => ⟨decodeReq_unlisted, fun ho hz => ?_, fun ho hz ht => ?_, fun ho hz ht => ?_⟩
  all_goals obtain ⟨i, -, hd⟩ := decodeReq_listed ho
  · rw [hd, if_pos hz]
  · simp [hd, hz, ht]
  · exact ⟨i, by simp [hd, hz, ht]⟩

/-- The request decoder answers an instruction exactly for the well-formed requests. -/
theorem isSome_decode_req (r : Request) : (decode (.req r)).isSome = r.wellFormed := by
  obtain ⟨hop, hfield, htext, hok⟩ := refusalOrder r
  rw [Request.wellFormed, decode]
  cases ho : r.opListed with
  | false => rw [hop ho]; rfl
  | true =>
    cases hz : r.reservedZero with
    | false => rw [hfield ho hz]; rfl
    | true =>
      cases ht : r.textsFit with
      | false => rw [htext ho hz ht]; rfl
      | true => obtain ⟨i, hi⟩ := hok ho hz ht; rw [hi]; rfl

/-- The rows of R78 hold every byte but those R82 lists. -/
theorem commandRows_any (x : Byte) : (commandRows.any fun r => x &&& r.2 == r.1) = commandByteListed x := by
  revert x; decide

/-- Settles O3: for a request by the decoder's three checks, for a command byte by the rows of R78. -/
theorem decodesExactlyWellFormed : Obligations.DecodesExactlyWellFormed := by
  intro c
  match c with
  | .req r => exact isSome_decode_req r
  | .bus true x => rfl
  | .bus false x => exact (decodeBus_isSome_iff_row x).trans (commandRows_any x)

/-- The request decoder answers what the operation code selects, for the well-formed requests. -/
theorem decodeReq_ok_iff {r : Request} {i : Instr} : decodeReq r = .ok i ↔ r.wellFormed = true ∧
    selectOp (opOf r.word) (fOf r.word) (aOf r.word) r.text1 r.text2 = some i := by
  constructor
  · intro h
    have hw : r.wellFormed = true := by rw [← isSome_decode_req, decode, h]; rfl
    obtain ⟨ho, hz, ht⟩ := (wellFormed_iff r).mp hw
    obtain ⟨j, hj, hd⟩ := decodeReq_listed ho
    have hij : i = j := by simpa [h, hz, ht] using hd
    exact ⟨hw, hij ▸ hj⟩
  · rintro ⟨hw, hi⟩
    obtain ⟨ho, hz, ht⟩ := (wellFormed_iff r).mp hw
    obtain ⟨j, hj, hd⟩ := decodeReq_listed ho
    cases hj.symm.trans hi
    simp [hd, hz, ht]

/-! ### Encode, then decode (R72, R73) -/

theorem encode_wellFormed (i : Instr) : (encode i).wellFormed = true := by
  cases i with
  | shiftbit b => exact EncodingWellFormed.shiftbit b
  | shiftbyte x => exact EncodingWellFormed.shiftbyte x
  | latch => exact EncodingWellFormed.latch
  | putbit b => exact EncodingWellFormed.putbit b
  | putbyte x => exact EncodingWellFormed.putbyte x
  | command x => exact EncodingWellFormed.command x
  | writechar c => exact EncodingWellFormed.writechar c
  | clear => exact EncodingWellFormed.clear
  | home => exact EncodingWellFormed.home
  | funcset e n s => exact EncodingWellFormed.funcset e n s
  | dispset d c k => exact EncodingWellFormed.dispset d c k
  | entryset i h => exact EncodingWellFormed.entryset i h
  | setddram a => exact EncodingWellFormed.setddram a
  | setcgram a => exact EncodingWellFormed.setcgram a
  | setcursor l idx => exact EncodingWellFormed.setcursor l idx
  | defaultsetup => exact EncodingWellFormed.defaultsetup
  | writestr t => exact EncodingWellFormed.writestr t
  | writemsg t1 t2 => exact EncodingWellFormed.writemsg t1 t2
  | lcdClear => exact EncodingWellFormed.lcdClear
  | lcdHome => exact EncodingWellFormed.lcdHome
  | lcdEntryModeSet i h => exact EncodingWellFormed.lcdEntryModeSet i h
  | lcdDisplaySet d c k => exact EncodingWellFormed.lcdDisplaySet d c k
  | lcdFunctionSet n s => exact EncodingWellFormed.lcdFunctionSet n s
  | lcdCgramAddressSet a => exact EncodingWellFormed.lcdCgramAddressSet a
  | lcdDdramAddressSet a => exact EncodingWellFormed.lcdDdramAddressSet a
  | lcdData x => exact EncodingWellFormed.lcdData x

@[simp] theorem getElem_bitArg_zero (b : Bool) : (bitArg b)[0] = b := by cases b <;> rfl

@[simp] theorem getElem_flags_two (f2 f1 f0 : Bool) : (flags f2 f1 f0)[2] = f2 := by revert f2 f1 f0; decide

@[simp] theorem getElem_flags_one (f2 f1 f0 : Bool) : (flags f2 f1 f0)[1] = f1 := by revert f2 f1 f0; decide

@[simp] theorem getElem_flags_zero (f2 f1 f0 : Bool) : (flags f2 f1 f0)[0] = f0 := by revert f2 f1 f0; decide

@[simp] theorem extractLsb'_setWidth_seven (a : BitVec 7) : (a.setWidth 8).extractLsb' 0 7 = a := by revert a; decide

@[simp] theorem extractLsb'_setWidth_six (a : BitVec 6) : (a.setWidth 8).extractLsb' 0 6 = a := by revert a; decide

/-- An instruction encoded as a request decodes to itself once its fields select it: its words pass every check. -/
theorem decode_encode_request {i : Instr} {op : BitVec 5} {f : BitVec 3} {a : Byte} {t1 t2 : Text}
    (he : encode i = .req ⟨requestWord op f a, t1, t2⟩) (hs : selectOp op f a t1 t2 = some i) :
    decode (encode i) = some i := by
  have hw := encode_wellFormed i
  rw [he] at hw ⊢
  have hd : decodeReq ⟨requestWord op f a, t1, t2⟩ = .ok i := decodeReq_ok_iff.mpr ⟨hw, by simpa using hs⟩
  rw [decode, hd]
  rfl

/-- Settles O1: a request's fields select the instruction they were packed from; the bus rows are finite. -/
theorem decodeOfEncode : Obligations.DecodeOfEncode := by
  intro i
  cases i
  case lcdClear => decide
  case lcdHome => decide
  case lcdEntryModeSet i h => revert i h; decide
  case lcdDisplaySet d c k => revert d c k; decide
  case lcdFunctionSet n s => revert n s; decide
  case lcdCgramAddressSet a => revert a; decide
  case lcdDdramAddressSet a => revert a; decide
  case lcdData x => rfl
  all_goals exact decode_encode_request rfl (by simp [selectOp])

/-! ### Decode, then encode: with its reserved bits clear a field is its operands repacked (R73, R74) -/

theorem flags_eq_zero : ∀ f : BitVec 3, f &&& 7 = 0 → f = 0 := by decide

theorem flags_eq_three : ∀ f : BitVec 3, f = flags (f.getLsbD 2) (f.getLsbD 1) (f.getLsbD 0) := by decide

theorem flags_eq_low_two : ∀ f : BitVec 3, f &&& 4 = 0 → f = flags false (f.getLsbD 1) (f.getLsbD 0) := by decide

theorem flags_eq_low_one : ∀ f : BitVec 3, f &&& 6 = 0 → f = flags false false (f.getLsbD 0) := by decide

theorem arg_eq_zero : ∀ a : Byte, a &&& 0xFF = 0 → a = 0 := by decide

theorem arg_eq_bitArg : ∀ a : Byte, a &&& 0xFE = 0 → a = bitArg (a.getLsbD 0) := by decide

theorem arg_eq_low_seven : ∀ a : Byte, a &&& 0x80 = 0 → a = (a.extractLsb' 0 7).setWidth 8 := by decide

theorem arg_eq_low_six : ∀ a : Byte, a &&& 0xC0 = 0 → a = (a.extractLsb' 0 6).setWidth 8 := by decide

theorem plainRequest_eq {op : BitVec 5} {f f' : BitVec 3} {a a' : Byte} {t1 t2 : Text} (hf : f = f') (ha : a = a')
    (ht : (t1.isEmpty && t2.isEmpty) = true) : plainRequest op f' a' = .req ⟨requestWord op f a, t1, t2⟩ := by
  obtain ⟨h1, h2⟩ : t1 = [] ∧ t2 = [] := by simpa using ht
  rw [hf, ha, h1, h2, plainRequest]

/-- What an operation code selects is encoded as the fields it was selected from, where these pass the checks. -/
theorem encode_selectOp {op : BitVec 5} {f : BitVec 3} {a : Byte} {t1 t2 : Text} {i : Instr}
    (hs : selectOp op f a t1 t2 = some i) (hf : f &&& fOf (rzMask op) = 0) (ha : a &&& aOf (rzMask op) = 0)
    (ht : textsOk op t1 t2 = true) : encode i = .req ⟨requestWord op f a, t1, t2⟩ := by
  unfold selectOp at hs
  split at hs <;> cases hs
  all_goals
    rename_i hop
    replace hop := congrArg (BitVec.ofNat 5) hop
    rw [BitVec.ofNat_toNat, BitVec.setWidth_eq] at hop
    subst hop
  -- no operand
  case h_3.refl | h_8.refl | h_9.refl | h_16.refl => exact plainRequest_eq (flags_eq_zero f hf) (arg_eq_zero a ha) ht
  -- the operand in A: a byte, a bit, an address
  case h_2.refl | h_5.refl | h_6.refl | h_7.refl => exact plainRequest_eq (flags_eq_zero f hf) rfl ht
  case h_1.refl | h_4.refl => exact plainRequest_eq (flags_eq_zero f hf) (arg_eq_bitArg a ha) ht
  case h_13.refl => exact plainRequest_eq (flags_eq_zero f hf) (arg_eq_low_seven a ha) ht
  case h_14.refl => exact plainRequest_eq (flags_eq_zero f hf) (arg_eq_low_six a ha) ht
  -- flags in F: three, two, and one beside a byte in A
  case h_10.refl | h_11.refl => exact plainRequest_eq (flags_eq_three f) (arg_eq_zero a ha) ht
  case h_12.refl => exact plainRequest_eq (flags_eq_low_two f hf) (arg_eq_zero a ha) ht
  case h_15.refl => exact plainRequest_eq (flags_eq_low_one f hf) rfl ht
  -- texts: the first alone, both
  case h_17.refl =>
    have h2 : t2 = [] := by simpa [textsOk] using ht
    rw [flags_eq_zero f hf, arg_eq_zero a ha, h2]
    rfl
  case h_18.refl =>
    rw [flags_eq_zero f hf, arg_eq_zero a ha]
    rfl

theorem encode_of_decodeReq {r : Request} {i : Instr} (h : decodeReq r = .ok i) : encode i = .req r := by
  obtain ⟨hw, hs⟩ := decodeReq_ok_iff.mp h
  obtain ⟨ho, hz, ht⟩ := (wellFormed_iff r).mp hw
  obtain ⟨hf, ha⟩ := (and_rzMask_eq_zero_iff _ _).mp ((reservedZero_iff r ho).mp hz)
  rw [encode_selectOp hs hf ha ((textsOk_eq_textsFit r).trans ht), requestWord_fields]

/-- A byte of a pattern of R78 is that pattern with the operands read from it; any byte is data with RS = 1 (R80). -/
theorem encode_of_decodeBus {rs : Bool} {x : Byte} {i : Instr} (h : decodeBus rs x = some i) :
    encode i = .bus rs x := by
  have whole : x &&& 0xFF = x := BitVec.and_allOnes
  have entry : ∀ y : Byte, y &&& 0xFC = 0x04 →
      encode (.lcdEntryModeSet (y.getLsbD 1) (y.getLsbD 0)) = .bus false y := by decide
  have display : ∀ y : Byte, y &&& 0xF8 = 0x08 →
      encode (.lcdDisplaySet (y.getLsbD 2) (y.getLsbD 1) (y.getLsbD 0)) = .bus false y := by decide
  have function : ∀ y : Byte, y &&& 0xF3 = 0x30 →
      encode (.lcdFunctionSet (y.getLsbD 3) (y.getLsbD 2)) = .bus false y := by decide
  have cgram : ∀ y : Byte, y &&& 0xC0 = 0x40 →
      encode (.lcdCgramAddressSet (y.extractLsb' 0 6)) = .bus false y := by decide
  have ddram : ∀ y : Byte, y &&& 0x80 = 0x80 →
      encode (.lcdDdramAddressSet (y.extractLsb' 0 7)) = .bus false y := by decide
  cases rs with
  | true => cases h; rfl
  | false =>
    simp only [decodeBus, Bool.false_eq_true, if_false] at h
    split_ifs at h with h1 h2 h3 h4 h5 h6 h7 <;> cases h
    · rw [← whole, h1]; rfl
    · rw [← whole, h2]; rfl
    · exact entry x h3
    · exact display x h4
    · exact function x h5
    · exact cgram x h6
    · exact ddram x h7

/-- Settles O2: a request's fields are repacked from its operands, a bus byte from its pattern. -/
theorem encodeOfDecode : Obligations.EncodeOfDecode := by
  intro c i h
  cases c with
  | req r =>
    cases hd : decodeReq r with
    | ok j => simp only [decode, hd] at h; cases h; exact encode_of_decodeReq hd
    | error e => simp only [decode, hd] at h; cases h
  | bus rs x => exact encode_of_decodeBus h

/-- Settles O5, by evaluating the decoder on the words written out. -/
theorem writtenWordsDecode : Obligations.WrittenWordsDecode := by
  unfold Obligations.WrittenWordsDecode
  decide

/-! ### What a step refuses by name (60_exceptions.md R201) -/

/-- In READY with no reset due, a request the decoder refuses is refused by that name. -/
theorem step_refuses_request {s : State} {r : Request} {rest : List HostAction} {e : DecodeError}
    (hp : s.phase = .ready) (hd : resetDue s = none) (hh : s.host = .req r :: rest) (he : decodeReq r = .error e) :
    step s = .refused (refuseRequest r e) := by
  simp only [step_ready hp hd, takeHostAction, hh, presentRequest, he]

/-- Settles O10: a reserved operation code is none of the listed ones, which the decoder checks first. -/
theorem reservedOpcodeRefused : Obligations.ReservedOpcodeRefused := by
  intro s r rest hp hd hh hop
  have hlisted : r.opListed = false := by
    rw [Request.opListed, Request.opNumber, decide_eq_false_iff_not]
    omega
  exact step_refuses_request hp hd hh (decodeReq_unlisted hlisted)

/-- Settles O11, by the decoder's second check. -/
theorem reservedFieldRefused : Obligations.ReservedFieldRefused := by
  intro s r rest hp hd hh ho hz
  obtain ⟨-, hfield, -, -⟩ := refusalOrder r
  exact step_refuses_request hp hd hh (hfield ho hz)

/-- Settles O12, by the decoder's third check. -/
theorem textOperandRefused : Obligations.TextOperandRefused := by
  intro s r rest hp hd hh ho hz ht
  obtain ⟨-, -, htext, -⟩ := refusalOrder r
  exact step_refuses_request hp hd hh (htext ho hz ht)

/-! ### The command bytes with their bits written out (R78) -/

theorem entrysetByte_bits (i h : Bool) :
    entrysetByte i h = 0x04 ||| (if i then 0x02 else 0) ||| (if h then 0x01 else 0) := by
  revert i h; decide

theorem dispsetByte_bits (d c k : Bool) :
    dispsetByte d c k = 0x08 ||| (if d then 0x04 else 0) ||| (if c then 0x02 else 0) ||| (if k then 0x01 else 0) := by
  revert d c k; decide

theorem funcsetByte_bits (n sm : Bool) :
    funcsetByte true n sm = 0x30 ||| (if n then 0x08 else 0) ||| (if sm then 0x04 else 0) := by
  revert n sm; decide

/-- Settles O39: each row logs the byte its operands assemble. -/
theorem busBytesByLayout : Obligations.BusBytesByLayout := by
  refine fun s => ⟨rfl, rfl, fun i h => ?_, fun d c k => ?_, fun n sm => ?_, fun a => rfl, fun a => rfl, fun x => rfl⟩
  · rw [← entrysetByte_bits]; rfl
  · rw [← dispsetByte_bits]; rfl
  · rw [← funcsetByte_bits]; rfl

end Sys2Proof.Proofs
end

section
/-! SUPPORT. Proof that the compositions of 30_encoding.md R84 are sequences of operations: performing one action list
after another is performing the two lists joined, because what an action does depends on nothing behind it in the list. -/

namespace Sys2Proof.Proofs

open Sys2Proof.Machine Sys2Proof.Laws Sys2Proof.Safety

/-! ### A list accepted and performed to its end (10_state.md R27) -/

/-- s with the list just accepted: what acceptance in READY answers (10_state.md R26, R27). -/
def loaded (items : List SeqItem) (s : State) : State :=
  { s with seq := items, phase := if items = [] then .ready else .busy }

/-- The list, accepted in s and performed one action a step, ends in u. -/
def Plays (items : List SeqItem) (s u : State) : Prop := run items.length (loaded items s) = .next u

@[simp] theorem loaded_phase_cons (it : SeqItem) (l : List SeqItem) (s : State) :
    (loaded (it :: l) s).phase = .busy := by
  simp [loaded]

/-- A later acceptance replaces the list of an earlier one. -/
theorem loaded_loaded (l l' : List SeqItem) (s : State) : loaded l (loaded l' s) = loaded l s := rfl

/-- An operation accepted in READY completes as its list plays. -/
theorem completes_iff_plays {i : Instr} {l : List SeqItem} {s : State} (u : State) (hi : exec i s = accept l s)
    (hp : s.phase = .ready) : Completes i s u ↔ Plays l s u := by
  have hx : exec i s = .next (loaded l s) := hi.trans (accept_ready l hp)
  simp only [Completes, hx, Plays]
  exact ⟨fun ⟨t, ht, h⟩ => by cases ht; exact h, fun h => ⟨_, rfl, h⟩⟩

/-! ### One action of a loaded list -/

/-- Retiring the head leaves the rest loaded. -/
theorem retire_loaded (it : SeqItem) (l : List SeqItem) (s : State) (a : Action) :
    (loaded (it :: l) s).retire a = loaded l { s with trace := s.trace ++ [a] } := by
  rw [retire_of_seq (it := it) rfl, loaded_phase_cons]
  rfl

/-- Driving a line with no fall of E and no breach of the settle time (60_exceptions.md R205). -/
theorem perform_set_no_breach {s : State} {p : Pin} {v : Bool} (need : Nat)
    (hf : ¬(p = .e ∧ s.pins.falls p v = true)) (hb : p = .e → v = true → timingBreach s = none) :
    perform ⟨.set p v, need⟩ s = .next ((s.retire (.set p v)).setPin p v) := by
  obtain ⟨he, hfall, -⟩ | ⟨-, he, hv, tFall, required, hbreach, -⟩ | ⟨-, -, h⟩ := performSet_cases p v need s
  · exact absurd ⟨he, hfall⟩ hf
  · rw [hb he hv] at hbreach; cases hbreach
  · exact h

/-- A fall of E with a known byte on the bus (60_exceptions.md R218). -/
theorem perform_fall_of_e {s : State} {x : Byte} (need : Nat) (he : s.pins.e = true) (hx : s.q.byte? = some x) :
    perform ⟨.set .e false, need⟩ s = .next (busWrite s.pins.rs x (s.fallE need)) :=
  (if_pos ⟨rfl, by simp [Pins.falls, Pins.get, he]⟩).trans (sample_known need hx)

/-- What the head action does depends on nothing behind it. -/
theorem perform_loaded {it : SeqItem} {l : List SeqItem} {s v : State} (h : perform it (loaded (it :: l) s) = .next v)
    (l' : List SeqItem) : perform it (loaded (it :: l') s) = .next (loaded l' v) := by
  obtain ⟨a, need⟩ := it
  obtain ⟨d, ha, rfl⟩ | ⟨p, b, ha, hf, hb, rfl⟩ | ⟨x, ha, he, hx, rfl⟩ := perform_next_cases h
  · cases ha
    simp only [perform, performWait, retire_loaded]
    rfl
  · cases ha
    rw [perform_set_no_breach need (by exact hf) (by exact hb), retire_loaded, retire_loaded]
    rfl
  · cases ha
    rw [perform_fall_of_e need (by exact he) (by exact hx)]
    simp only [State.fallE, retire_loaded]
    rfl

/-- Whether a reset cuts the head action depends on nothing behind it. -/
theorem resetDue_loaded (it : SeqItem) (l l' : List SeqItem) (s : State) :
    resetDue (loaded (it :: l') s) = resetDue (loaded (it :: l) s) := by
  have hw : headWait (loaded (it :: l') s) = headWait (loaded (it :: l) s) := by
    obtain ⟨a, need⟩ := it
    cases a <;> rfl
  simp only [resetDue, loaded_phase_cons, hw]
  rfl

/-- No reset is due where a step of a loaded list answers a next state (70_reset_and_hazards.md R235). -/
theorem resetDue_of_step_loaded {it : SeqItem} {l : List SeqItem} {s v : State}
    (h : step (loaded (it :: l) s) = .next v) : resetDue (loaded (it :: l) s) = none := by
  obtain ⟨time, -, hp, -⟩ | ⟨hd, -⟩ | ⟨hd, -⟩ | ⟨hd, -⟩ | ⟨hd, -⟩ | ⟨hd, -⟩ | ⟨hd, -⟩ | ⟨hd, -⟩ := step_next_cases h
  · rw [loaded_phase_cons] at hp; cases hp
  all_goals exact hd

/-- What a step does with the head action depends on nothing behind it. -/
theorem step_loaded {it : SeqItem} {l : List SeqItem} {s v : State} (h : step (loaded (it :: l) s) = .next v)
    (l' : List SeqItem) : step (loaded (it :: l') s) = .next (loaded l' v) := by
  have hd := resetDue_of_step_loaded h
  rw [step_busy _ it l hd (loaded_phase_cons it l s) rfl] at h
  rw [step_busy _ it l' ((resetDue_loaded it l l' s).trans hd) (loaded_phase_cons it l' s) rfl, perform_loaded h]

/-! ### One list after another -/

theorem run_succ_next_iff {n : Nat} {s u : State} :
    run (n + 1) s = .next u ↔ ∃ v, step s = .next v ∧ run n v = .next u := by
  cases h : step s <;> simp [run, h]

theorem plays_nil {s u : State} : Plays [] s u ↔ u = loaded [] s := by
  simp [Plays, run, eq_comm]

/-- The head plays as a list of its own, and then the rest. -/
theorem plays_cons {it : SeqItem} {l : List SeqItem} {s u : State} :
    Plays (it :: l) s u ↔ ∃ v, step (loaded [it] s) = .next v ∧ Plays l v u := by
  unfold Plays
  rw [List.length_cons, run_succ_next_iff]
  constructor
  · rintro ⟨v, hv, hu⟩
    have hl : v = loaded l v := by simpa [hv] using step_loaded hv l
    exact ⟨loaded [] v, step_loaded hv [], by rw [loaded_loaded, ← hl]; exact hu⟩
  · rintro ⟨v, hv, hu⟩
    exact ⟨loaded l v, step_loaded hv l, hu⟩

/-- Two lists joined play as one after the other. -/
theorem plays_append {l1 l2 : List SeqItem} {s u : State} :
    Plays (l1 ++ l2) s u ↔ ∃ m, Plays l1 s m ∧ Plays l2 m u := by
  induction l1 generalizing s with
  | nil =>
    simp only [List.nil_append, plays_nil, exists_eq_left]
    rfl
  | cons it l1 ih =>
    simp only [List.cons_append, plays_cons, ih]
    exact ⟨fun ⟨v, hv, m, h1, h2⟩ => ⟨m, ⟨v, hv, h1⟩, h2⟩, fun ⟨m, ⟨v, hv, h1⟩, h2⟩ => ⟨v, hv, m, h1, h2⟩⟩

/-- A list that has played leaves READY, for the configuration it began with. -/
theorem plays_ready_config {l : List SeqItem} {s u : State} (h : Plays l s u) :
    u.phase = .ready ∧ u.config = s.config := by
  induction l generalizing s with
  | nil => rw [plays_nil] at h; subst h; exact ⟨rfl, rfl⟩
  | cons it l ih =>
    obtain ⟨v, hv, hu⟩ := plays_cons.mp h
    have hc : v.config = (loaded [it] s).config := noStepChangesAParameter _ _ hv
    exact ⟨(ih hu).1, (ih hu).2.trans hc⟩

/-- An operation completes after a list exactly as its own list does, joined to the first. -/
theorem plays_then_completes {j : Instr} {g : Config → List SeqItem} (hj : ∀ m, exec j m = accept (g m.config) m)
    {l : List SeqItem} {s u : State} :
    (∃ m, Plays l s m ∧ Completes j m u) ↔ Plays (l ++ g s.config) s u := by
  rw [plays_append]
  refine exists_congr fun m => and_congr_right fun hm => ?_
  obtain ⟨hp, hc⟩ := plays_ready_config hm
  rw [completes_iff_plays u (hj m) hp, hc]

/-! ### One operation after another -/

section

variable {i j k : Instr} {l : List SeqItem} {g g' : Config → List SeqItem} {s : State}

/-- Two operations one after the other play their lists joined. -/
theorem completes_then (u : State) (hi : exec i s = accept l s) (hj : ∀ m, exec j m = accept (g m.config) m)
    (hp : s.phase = .ready) : (∃ m, Completes i s m ∧ Completes j m u) ↔ Plays (l ++ g s.config) s u := by
  simp only [completes_iff_plays _ hi hp, plays_then_completes hj]

/-- Three operations one after the other play their lists joined. -/
theorem completes_then_then (u : State) (hi : exec i s = accept l s) (hj : ∀ m, exec j m = accept (g m.config) m)
    (hk : ∀ m, exec k m = accept (g' m.config) m) (hp : s.phase = .ready) :
    (∃ m1 m2, Completes i s m1 ∧ Completes j m1 m2 ∧ Completes k m2 u) ↔
      Plays (l ++ g s.config ++ g' s.config) s u := by
  simp only [← plays_then_completes hk, ← completes_then _ hi hj hp]
  exact ⟨fun ⟨m1, m2, h1, h2, h3⟩ => ⟨m2, ⟨m1, h1, h2⟩, h3⟩, fun ⟨m2, ⟨m1, h1, h2⟩, h3⟩ => ⟨m1, m2, h1, h2, h3⟩⟩

end

/-- SETCURSOR is SETDDRAM of the masked index with the line's base (42_lcd_commands.md R148; log entry 20). -/
theorem exec_setcursor (l : Bool) (idx : Byte) (s : State) : exec (.setcursor l idx) s = exec (.setddram
    ((if l then s.config.line2Base else s.config.line1Base) ||| (idx &&& s.config.indexMask).setWidth 7)) s :=
  congrArg (fun a => accept (ddramSeq s.config a) s) (BitVec.or_comm _ _)

/-- Settles O35: each composition's list is the lists of its parts joined, and SETCURSOR is one SETDDRAM. The quiet lines,
the settle and the absence of resets are not needed: both sides go the same way without them. -/
theorem compositionsAreSequences : Obligations.CompositionsAreSequences := by
  intro s u
  refine ⟨fun b ⟨hp, _⟩ => ?_, fun x ⟨hp, _⟩ => ?_, fun l idx => ?_, fun ⟨hp, _⟩ _ => ?_, fun t1 t2 ⟨hp, _⟩ _ => ?_⟩
  · rw [completes_iff_plays u rfl hp, completes_then (g := latchSeq) u rfl (fun _ => rfl) hp]
  · rw [completes_iff_plays u rfl hp, completes_then (g := latchSeq) u rfl (fun _ => rfl) hp, putByteSeq]
  · simp only [Completes, exec_setcursor]
  · rw [completes_iff_plays u rfl hp, completes_then_then (g := fun c => dispsetSeq c true true true)
      (g' := fun c => entrysetSeq c true false) u rfl (fun _ => rfl) (fun _ => rfl) hp]
  · rw [completes_iff_plays u rfl hp, completes_then_then (g := fun c => ddramSeq c s.config.line2Base)
      (g' := fun c => strSeq c t2) u rfl (fun _ => rfl) (fun _ => rfl) hp]

end Sys2Proof.Proofs
end

section
/-! SUPPORT. Proofs of the statements about the shift layer (40_shift.md R101 to R105): a list that drives no E, accepted in
READY, runs to its end with the lines and stages `devAfter` computes; each operation is one such list, made of shifted bits
and latches. -/

namespace Sys2Proof.Proofs

open Sys2Proof.Machine Sys2Proof.Laws Sys2Proof.Safety

/-! ### The words (30_encoding.md R71, R72) -/

/-- The argument is the low byte of the word, ORed into the rest. -/
theorem requestWord_eq_or (op : BitVec 5) (f : BitVec 3) (a : Byte) :
    requestWord op f a = requestWord op f 0 ||| a.setWidth 16 := by
  apply BitVec.eq_of_getLsbD_eq
  intro i hi
  rw [BitVec.getLsbD_or, getLsbD_requestWord, getLsbD_requestWord, BitVec.getLsbD_setWidth]
  by_cases h : i < 8
  · simp [h, hi]
  · simp [h, BitVec.getLsbD_of_ge a i (by omega)]

/-- The word of an operation with a byte operand. -/
theorem plainRequest_eq_or (op : BitVec 5) (f : BitVec 3) (a : Byte) :
    plainRequest op f a = .req ⟨requestWord op f 0 ||| a.setWidth 16, [], []⟩ := by
  rw [plainRequest, requestWord_eq_or]

/-! ### A list that drives no E, accepted and performed to its end -/

/-- Quiet lines, line by line (70_reset_and_hazards.md R238). -/
theorem quiet_iff (p : Pins) :
    quiet p = true ↔ p.srclk = false ∧ p.rclk = false ∧ p.e = false ∧ p.rw = false := by
  simp [quiet, and_assoc]

/-- Between two operations both clocks of the shift register are low. -/
theorem readyQuiet_clocks_low {s : State} {d : Nat} (hs : ReadyQuiet s d) :
    s.pins.srclk = false ∧ s.pins.rclk = false := by
  obtain ⟨-, -, hquiet⟩ := hs
  obtain ⟨hsrclk, hrclk, -⟩ := (quiet_iff s.pins).mp hquiet
  exact ⟨hsrclk, hrclk⟩

/-- A list just accepted is running, and with no reset scheduled nothing stops it. -/
theorem going_loaded {items : List SeqItem} (hne : items ≠ []) (s : State) : Going (withResets (loaded items s) []) := by
  have hbusy : (withResets (loaded items s) []).phase = .busy := if_neg hne
  exact ⟨rfl, by simp [hbusy], by simp [hbusy]⟩

/-- A list that drives no E plays to its end when no reset comes before it. -/
theorem plays_noE {items : List SeqItem} {s : State} (he : (items.all fun it => notE it.action) = true)
    (hr : ResetAfter s (s.now + duration (items.map (·.action)))) :
    Plays items s (pastActs s [] (items.map (·.action))) := by
  by_cases hne : items = []
  · subst hne
    rw [plays_nil]
    simp [pastActs, past, devAfter, duration, loaded]
  · have hrun := run_block items hne (going_loaded hne s) (rest := []) (by simp [withResets, loaded]) he
    exact run_laterReset items.length hrun hr

/-- An operation whose list drives no E completes, with the lines and stages that `devAfter` computes. -/
theorem completes_noE {i : Instr} {items : List SeqItem} {acts : List Action} {s : State} {dt : Nat} {pins : Pins}
    {sr q : Stages} (hi : exec i s = accept items s) (he : (items.all fun it => notE it.action) = true)
    (ha : items.map (·.action) = acts) (hs : ReadyQuiet s dt) (hdur : duration acts = dt)
    (hdev : devAfter s.pins s.sr s.q acts = (pins, sr, q)) :
    Completes i s { s with
      seq := [], pins := pins, sr := sr, q := q, now := s.now + dt, trace := s.trace ++ acts } := by
  subst ha hdur
  obtain ⟨hp, hr, -⟩ := hs
  have hplays := plays_noE he hr
  rw [pastActs, hdev] at hplays
  rw [completes_iff_plays _ hi hp]
  simpa [past, hp] using hplays

/-! ### The operations -/

/-- Settles O17: one shifted bit. -/
theorem shiftbitCompletes : Obligations.ShiftbitCompletes := by
  intro b s hs
  obtain ⟨hsrclk, -⟩ := readyQuiet_clocks_low hs
  exact ⟨by cases b <;> rfl,
    completes_noE rfl rfl rfl hs (duration_bit _ b) (devAfter_bit s.config b _ _ _ hsrclk [])⟩

/-- Settles O18: eight shifted bits, which load the byte whatever the stages held. -/
theorem shiftbyteCompletes : Obligations.ShiftbyteCompletes := by
  intro x s hs
  obtain ⟨hsrclk, -⟩ := readyQuiet_clocks_low hs
  exact ⟨plainRequest_eq_or 0x02 0 x,
    completes_noE rfl rfl rfl hs (duration_byte _ x) (devAfter_byte s.config x _ _ _ hsrclk [])⟩

/-- Settles O19: one latch. -/
theorem latchCompletes : Obligations.LatchCompletes := by
  intro s hs
  obtain ⟨-, hrclk⟩ := readyQuiet_clocks_low hs
  exact ⟨rfl, completes_noE rfl rfl rfl hs (duration_latch _) (devAfter_latch s.config _ _ _ hrclk [])⟩

/-- Settles O20: one shifted bit, and then a latch of the stages it leaves. -/
theorem putbitCompletes : Obligations.PutbitCompletes := by
  intro b s hs
  obtain ⟨hsrclk, hrclk⟩ := readyQuiet_clocks_low hs
  have hdur : duration (bitActions s.config b ++ latchActions s.config) = 5 * s.config.tS := by
    rw [duration_append, duration_bit, duration_latch]; omega
  refine ⟨by cases b <;> rfl, ?_⟩
  rw [List.append_assoc]
  exact completes_noE rfl rfl rfl hs hdur
    ((devAfter_bit _ b _ _ _ hsrclk _).trans (devAfter_latch s.config _ _ _ (by exact hrclk) []))

/-- Settles O21: eight shifted bits, and then one latch of the byte they load. -/
theorem putbyteCompletes : Obligations.PutbyteCompletes := by
  intro x s hs
  obtain ⟨hsrclk, hrclk⟩ := readyQuiet_clocks_low hs
  have hdur : duration (byteActions s.config x ++ latchActions s.config) = 26 * s.config.tS := by
    rw [duration_append, duration_byte, duration_latch]; omega
  refine ⟨plainRequest_eq_or 0x05 0 x, ?_⟩
  rw [List.append_assoc]
  exact completes_noE rfl rfl rfl hs hdur
    ((devAfter_byte _ x _ _ _ hsrclk _).trans (devAfter_latch s.config _ _ _ (by exact hrclk) []))

end Sys2Proof.Proofs
end

section
/-! SUPPORT. Proofs of the statements about the transfer layer (41_lcd_transfer.md R120 to R125): a transfer accepted in
READY, with the waits after it, plays to its end; and the step at its fall of E is the meaning of the sampled byte. -/

namespace Sys2Proof.Proofs

open Sys2Proof.Machine Sys2Proof.Laws Sys2Proof.Safety

/-! ### A transfer and its waits, accepted and performed to their end -/

/-- Quiet lines with no reset for some time are so for any shorter time. -/
theorem readyQuiet_mono {s : State} {d d' : Nat} (hs : ReadyQuiet s d) (hle : d' ≤ d) : ReadyQuiet s d' := by
  obtain ⟨hp, hr, hquiet⟩ := hs
  exact ⟨hp, fun r hrr => Nat.lt_of_le_of_lt (Nat.add_le_add_left hle _) (hr r hrr), hquiet⟩

/-- A transfer is 30 `Set`s and 30 `Wait`s (R120). -/
theorem xferSeq_length (c : Config) (rs : Bool) (x : Byte) (need : Nat) : (xferSeq c rs x need).length = 60 := rfl

/-- A transfer plays to its end when no reset comes before it (R120, R125). -/
theorem plays_xfer {s : State} {rs : Bool} {x : Byte} {need : Nat} (hs : ReadyQuiet s (transferTime s.config))
    (hsettled : TransferSettled s) : Plays (xferSeq s.config rs x need) s (afterTransfer s rs x need []) := by
  obtain ⟨hp, hr, hquiet⟩ := hs
  have hrun := run_xfer (going_loaded (items := xferSeq s.config rs x need) (by simp [xferSeq]) s)
    (rs := rs) (x := x) (need := need) (rest := []) (by simp [withResets, loaded]) hquiet hsettled
  have hlater := run_laterReset 60 hrun hr
  rw [Plays, xferSeq_length]
  simpa [withResets, loaded, afterTransfer, hp] using hlater

/-- Waits touch neither the lines nor the shift register. -/
theorem devAfter_waits (p : Pins) (sr q : Stages) (waits : List Nat) :
    devAfter p sr q (waits.map .wait) = (p, sr, q) := by
  induction waits with
  | nil => rfl
  | cons d waits ih => exact ih

theorem duration_waits (waits : List Nat) : duration (waits.map .wait) = waits.sum := by
  induction waits with
  | nil => rfl
  | cons d waits ih => rw [List.map_cons, duration, ih, List.sum_cons]

/-- Waits add their time and enter the trace; nothing else changes (00_scope.md R10; 10_state.md R28). -/
theorem plays_holds {s : State} (waits : List Nat) (hp : s.phase = .ready) (hr : ResetAfter s (s.now + waits.sum)) :
    Plays (waits.map hold) s
      { s with seq := [], now := s.now + waits.sum, trace := s.trace ++ waits.map .wait } := by
  have hacts : (waits.map hold).map (·.action) = waits.map .wait := by simp [hold]
  have hplays := plays_noE (items := waits.map hold) (s := s) (by simp [hold, notE])
    (by rwa [hacts, duration_waits])
  rw [hacts, pastActs, devAfter_waits, duration_waits] at hplays
  simpa [past, hp] using hplays

/-- A transfer with the waits after it plays to its end when no reset comes before it (R120, R124). -/
theorem plays_xfer_holds {s : State} {rs : Bool} {x : Byte} {need : Nat} (waits : List Nat)
    (hs : ReadyQuiet s (transferTime s.config + waits.sum)) (hsettled : TransferSettled s) :
    Plays (xferSeq s.config rs x need ++ waits.map hold) s (afterTransfer s rs x need waits) := by
  have hxfer := plays_xfer (rs := rs) (x := x) (need := need) (readyQuiet_mono hs (Nat.le_add_right _ _)) hsettled
  obtain ⟨hp, hr, -⟩ := hs
  have hholds := plays_holds (s := afterTransfer s rs x need []) waits hp
    (by simpa [ResetAfter, afterTransfer, Nat.add_assoc] using hr)
  exact plays_append.mpr ⟨_, hxfer, by simpa [afterTransfer] using hholds⟩

/-- An operation whose list is one transfer and waits completes. -/
theorem completes_xfer_holds {i : Instr} {s : State} {rs : Bool} {x : Byte} {need : Nat} (waits : List Nat)
    (hi : exec i s = accept (xferSeq s.config rs x need ++ waits.map hold) s)
    (hs : ReadyQuiet s (transferTime s.config + waits.sum)) (hsettled : TransferSettled s) :
    Completes i s (afterTransfer s rs x need waits) := by
  have hplays := plays_xfer_holds (rs := rs) (x := x) (need := need) waits hs hsettled
  obtain ⟨hp, -⟩ := hs
  exact (completes_iff_plays _ hi hp).mpr hplays

/-! ### The operations -/

/-- Settles O23: one transfer with no wait after it. -/
theorem commandCompletes : Obligations.CommandCompletes := by
  intro x s hs hsettled
  refine ⟨plainRequest_eq_or 0x08 0 x, completes_xfer_holds [] ?_ hs hsettled⟩
  rw [List.map_nil, List.append_nil]
  rfl

/-- Settles O24: one transfer and T_CHAR. -/
theorem writecharCompletes : Obligations.WritecharCompletes := by
  intro c s hs hsettled
  exact ⟨plainRequest_eq_or 0x09 0 c, completes_xfer_holds [s.config.tChar] rfl hs hsettled⟩

/-! ### The fall of E -/

/-- Driving E from 1 to 0 samples the bus (60_exceptions.md R218). -/
theorem perform_fall_eq_sample {s : State} (need : Nat) (he : s.pins.e = true) :
    perform ⟨.set .e false, need⟩ s = sample s need :=
  if_pos ⟨rfl, by simp [Pins.falls, Pins.get, he]⟩

/-- Sampling a byte that decodes is the meaning of what it decodes to (60_exceptions.md R218). -/
theorem sample_decoded {s : State} {x : Byte} {i : Instr} (need : Nat) (hx : s.q.byte? = some x)
    (hi : decodeBus s.pins.rs x = some i) : sample s need = exec i (s.fallE need) := by
  simp only [sample, State.db, hx, hi]

/-- The state after a fall of E, field by field: the shift register has no edge, `last_xfer` is set (R121). -/
theorem fallE_of_seq {s : State} {it : SeqItem} {rest : List SeqItem} (need : Nat) (hq : s.seq = it :: rest) :
    s.fallE need = { s with
      pins := { s.pins with e := false }
      seq := rest
      phase := if rest.isEmpty then .ready else s.phase
      trace := s.trace ++ [.set .e false]
      lastXfer := some (s.now, need) } := by
  simp only [State.fallE, State.retire, hq, List.tail_cons]
  rfl

/-- Settles O7: the head action lowers E, and the bus byte it samples decodes. -/
theorem stepRunsSampledByte : Obligations.StepRunsSampledByte := by
  intro s need rest x i hp hd hl hq he hx hi
  rw [step_running hp hd hl hq, perform_fall_eq_sample need he, sample_decoded need hx hi, fallE_of_seq need hq]

end Sys2Proof.Proofs
end

section
/-! SUPPORT. Proofs of the statements about the named LCD commands (42_lcd_commands.md R140 to R149): each is one transfer of
its command byte with a settle time after it, and DEFAULTSETUP plays three of them, each from the READY state the one
before leaves. -/

namespace Sys2Proof.Proofs

open Sys2Proof.Machine Sys2Proof.Laws Sys2Proof.Safety

/-! ### The words (30_encoding.md R71, R72) -/

/-- The flag operands are bits 10 to 8 of the word, ORed into the rest. -/
theorem plainRequest_flags (op : BitVec 5) (f2 f1 f0 : Bool) : plainRequest op (flags f2 f1 f0) 0 =
    .req ⟨requestWord op 0 0 ||| (if f2 then 0x400 else 0) ||| (if f1 then 0x200 else 0) |||
      (if f0 then 0x100 else 0), [], []⟩ := by
  rw [plainRequest]
  congr 2
  revert op f2 f1 f0
  decide

/-- An address operand no wider than a byte is the low bits of the word, ORed into the rest. -/
theorem plainRequest_address {n : Nat} (hn : n ≤ 8) (op : BitVec 5) (a : BitVec n) :
    plainRequest op 0 (a.setWidth 8) = .req ⟨requestWord op 0 0 ||| a.setWidth 16, [], []⟩ := by
  rw [plainRequest_eq_or, BitVec.setWidth_setWidth fun ⟨hlt, _⟩ => absurd hn (Nat.not_le_of_lt hlt)]

/-! ### The command bytes with their operands written out -/

/-- The 8-bit-bus bit is set whatever e is (R143). -/
theorem funcsetByte_eq_ite (e n sm : Bool) :
    funcsetByte e n sm = if n then if sm then 0x3C else 0x38 else if sm then 0x34 else 0x30 := by
  revert e n sm; decide

theorem toNat_and_fifteen (idx : Byte) : (idx &&& 0x0F).toNat = idx.toNat % 16 :=
  Nat.and_two_pow_sub_one_eq_mod idx.toNat 4

/-- An index masked to four bits fits an address. -/
theorem setWidth_masked_index (idx : Byte) : ((idx &&& 0x0F).setWidth 7).setWidth 8 = idx &&& 0x0F := by
  apply BitVec.eq_of_toNat_eq
  rw [BitVec.toNat_setWidth, BitVec.toNat_setWidth, toNat_and_fifteen]
  omega

/-- With the spec's line layout, the byte of a cursor address is that of R148. -/
theorem setcursor_byte {c : Config} (hc : LinesAtDefault c) (l : Bool) (idx : Byte) :
    ddramByte ((if l then c.line2Base else c.line1Base) ||| (idx &&& c.indexMask).setWidth 7) =
      0x80 ||| (if l then 0x40 else 0) ||| (idx &&& 0x0F) := by
  obtain ⟨h1, h2, -, hmask⟩ := hc
  rw [h1, h2, hmask, ddramByte, BitVec.setWidth_or, setWidth_masked_index, BitVec.or_assoc]
  cases l <;> rfl

/-! ### The addresses of SETCURSOR (R148; 20_memory.md R51) -/

/-- With the spec's line layout, a cursor address is the low four bits of the index, and 64 more in line 2. -/
theorem cursorAddr_toNat {c : Config} (hc : LinesAtDefault c) (l : Bool) (idx : Byte) :
    (cursorAddr c l idx).toNat = (if l then 64 else 0) + idx.toNat % 16 := by
  obtain ⟨h1, h2, -, hmask⟩ := hc
  have hidx : idx.toNat % 16 < 16 := Nat.mod_lt _ (by decide)
  have hcell : ((idx &&& 0x0F).setWidth 7).toNat = idx.toNat % 16 := by
    rw [BitVec.toNat_setWidth, toNat_and_fifteen]; omega
  have hline : 64 ||| idx.toNat % 16 = 64 + idx.toNat % 16 :=
    (Nat.two_pow_add_eq_or_of_lt (i := 6) (by omega) 1).symm
  rw [cursorAddr, h1, h2, hmask, BitVec.or_comm, BitVec.toNat_or, hcell]
  cases l
  · simp
  · simpa using hline

/-- With the spec's line layout, the visible windows are 0 to 15 and 64 to 79 (20_memory.md R51). -/
theorem ddramVisible_iff {c : Config} (hc : LinesAtDefault c) (a : BitVec 7) :
    ddramVisible c a = true ↔ a.toNat < 16 ∨ 64 ≤ a.toNat ∧ a.toNat < 80 := by
  obtain ⟨h1, h2, hvisible, -⟩ := hc
  simp [ddramVisible, h1, h2, hvisible]

/-- Settles O37: the line is the window, and the index is the low four bits of the address. -/
theorem cursorReachesExactlyTheVisibleCells : Obligations.CursorReachesExactlyTheVisibleCells := by
  intro c hc a
  rw [ddramVisible_iff hc]
  constructor
  · rintro ⟨l, idx, rfl⟩
    rw [cursorAddr_toNat hc]
    cases l
    · simp only [Bool.false_eq_true, if_false]; omega
    · simp only [if_true]; omega
  · intro hvisible
    refine ⟨decide (64 ≤ a.toNat), a.setWidth 8, BitVec.eq_of_toNat_eq ?_⟩
    rw [cursorAddr_toNat hc, BitVec.toNat_setWidth]
    simp only [decide_eq_true_eq]
    split <;> omega

/-! ### What a transfer leaves for the next one (R125) -/

/-- A transfer leaves READY with quiet lines, for as long as no reset comes after its waits. -/
theorem readyQuiet_afterTransfer {s : State} {d : Nat} (rs : Bool) (x : Byte) (need : Nat) (waits : List Nat)
    (hs : ReadyQuiet s (transferTime s.config + waits.sum + d)) : ReadyQuiet (afterTransfer s rs x need waits) d := by
  obtain ⟨hp, hr, -⟩ := hs
  exact ⟨hp, by simpa [ResetAfter, afterTransfer, Nat.add_assoc] using hr, rfl⟩

/-- A transfer whose waits cover its settle tag leaves the next one settled (70_reset_and_hazards.md R237). -/
theorem transferSettled_afterTransfer (s : State) (rs : Bool) (x : Byte) {need : Nat} {waits : List Nat}
    (hneed : need ≤ waits.sum) : TransferSettled (afterTransfer s rs x need waits) := by
  have hpassed : need ≤ s.now + (29 * s.config.tS + s.config.tEn) + waits.sum + 28 * s.config.tS -
      (s.now + 28 * s.config.tS + s.config.tEn) := by omega
  exact decide_eq_true hpassed

/-! ### A named command, accepted and performed to its end (R140) -/

/-- A named command plays to its end when no reset comes before it. -/
theorem plays_cmd {s : State} {x : Byte} {t : Nat} (hs : ReadyQuiet s (transferTime s.config + t))
    (hsettled : TransferSettled s) : Plays (cmdSeq s.config x t) s (afterCommand s x t) :=
  plays_xfer_holds [t] hs hsettled

/-- A named command and then the rest of a list, which begins READY, quiet and settled. -/
theorem plays_cmd_append {s u : State} {x : Byte} {t d : Nat} {items : List SeqItem}
    (hs : ReadyQuiet s (transferTime s.config + t + d)) (hsettled : TransferSettled s)
    (hrest : ReadyQuiet (afterCommand s x t) d → TransferSettled (afterCommand s x t) →
      Plays items (afterCommand s x t) u) : Plays (cmdSeq s.config x t ++ items) s u :=
  plays_append.mpr ⟨_, plays_cmd (readyQuiet_mono hs (Nat.le_add_right _ _)) hsettled,
    hrest (readyQuiet_afterTransfer false x t [t] hs) (transferSettled_afterTransfer s false x (Nat.le_refl t))⟩

/-- An operation that is one named command completes. -/
theorem completes_cmd {i : Instr} {s : State} {x : Byte} {t : Nat} (hi : exec i s = accept (cmdSeq s.config x t) s)
    (hs : ReadyQuiet s (transferTime s.config + t)) (hsettled : TransferSettled s) :
    Completes i s (afterCommand s x t) :=
  completes_xfer_holds [t] hi hs hsettled

/-! ### The operations -/

/-- Settles O25: one named command each. -/
theorem clearAndHomeComplete : Obligations.ClearAndHomeComplete := by
  intro s hs hsettled
  exact ⟨⟨rfl, completes_cmd rfl hs hsettled⟩, rfl, completes_cmd rfl hs hsettled⟩

/-- Settles O26: one named command, whose byte does not depend on e. -/
theorem funcsetCompletes : Obligations.FuncsetCompletes := by
  intro e n sm s hs hsettled
  rw [← funcsetByte_eq_ite e]
  exact ⟨plainRequest_flags 0x0C e n sm, completes_cmd rfl hs hsettled⟩

/-- Settles O27: one named command of the byte its three flags assemble. -/
theorem dispsetCompletes : Obligations.DispsetCompletes := by
  intro d c k s hs hsettled
  rw [← dispsetByte_bits]
  exact ⟨plainRequest_flags 0x0D d c k, completes_cmd rfl hs hsettled⟩

/-- Settles O28: one named command of the byte its two flags assemble. -/
theorem entrysetCompletes : Obligations.EntrysetCompletes := by
  intro i h s hs hsettled
  rw [← entrysetByte_bits]
  exact ⟨plainRequest_flags 0x0E false i h, completes_cmd rfl hs hsettled⟩

/-- Settles O29: one named command of the address with bit 7 set. -/
theorem setddramCompletes : Obligations.SetddramCompletes := by
  intro a s hs hsettled
  exact ⟨plainRequest_address (by decide) 0x0F a, completes_cmd rfl hs hsettled⟩

/-- Settles O30: one named command of the address with bit 6 set. -/
theorem setcgramCompletes : Obligations.SetcgramCompletes := by
  intro a s hs hsettled
  exact ⟨plainRequest_address (by decide) 0x10 a, completes_cmd rfl hs hsettled⟩

/-- Settles O31: SETCURSOR is SETDDRAM of its address, whose byte the spec's line layout makes that of R148. -/
theorem setcursorCompletes : Obligations.SetcursorCompletes := by
  intro l idx s hs hsettled
  have hcompletes := completes_cmd (exec_setcursor l idx s) hs hsettled
  refine ⟨?_, hcompletes, fun hc => ?_⟩
  · rw [encode, plainRequest_eq_or]
    cases l <;> rfl
  · rwa [setcursor_byte hc] at hcompletes

/-- Settles O32: three named commands, each from the READY, quiet and settled state the one before leaves. -/
theorem defaultsetupCompletes : Obligations.DefaultsetupCompletes := by
  intro s hs hsettled
  have hready : s.phase = .ready := hs.1
  refine ⟨rfl, (completes_iff_plays _ rfl hready).mpr ?_⟩
  have htimes := readyQuiet_mono hs (d' := transferTime s.config + s.config.tSetter +
    (transferTime s.config + s.config.tSetter + (transferTime s.config + s.config.tSetter))) (by omega)
  rw [List.append_assoc]
  exact plays_cmd_append htimes hsettled fun h1 hsettled1 =>
    plays_cmd_append h1 hsettled1 fun h2 hsettled2 => plays_cmd h2 hsettled2

end Sys2Proof.Proofs
end

section
/-! SUPPORT. Proofs of the statements about the text operations (43_lcd_text.md R170 to R173): the character writes of a
text, by induction over it, each from the READY, quiet and settled state the one before leaves. -/

namespace Sys2Proof.Proofs

open Sys2Proof.Machine Sys2Proof.Laws Sys2Proof.Safety

/-! ### What the character writes of a text leave (R124, R170) -/

/-- No character write changes a parameter. -/
theorem foldl_afterChar_config (t : Text) (s : State) : (t.foldl afterChar s).config = s.config := by
  induction t generalizing s with
  | nil => rfl
  | cons x t ih => exact ih (afterChar s x)

/-- A list left in `seq` before the text stays only where the text is empty. -/
theorem foldl_afterChar_emptied (t : Text) (s : State) :
    t.foldl afterChar { s with seq := [] } = { t.foldl afterChar s with seq := [] } := by
  induction t generalizing s with
  | nil => rfl
  | cons x t ih => exact ih (afterChar s x)

/-- One data entry a byte, first byte first. -/
theorem foldl_afterChar_busLog (t : Text) (s : State) :
    (t.foldl afterChar s).busLog = s.busLog ++ t.map (fun x => (true, x)) := by
  induction t generalizing s with
  | nil => simp
  | cons x t ih => simp [ih, afterChar, afterTransfer]

/-- Each byte takes the time of one character write. -/
theorem foldl_afterChar_now (t : Text) (s : State) :
    (t.foldl afterChar s).now = s.now + t.length * charTime s.config := by
  induction t generalizing s with
  | nil => simp
  | cons x t ih =>
    have hchar : (afterChar s x).now = s.now + charTime s.config := by
      simp [afterChar, afterTransfer, charTime, Nat.add_assoc]
    have hconfig : (afterChar s x).config = s.config := rfl
    rw [List.foldl_cons, ih, hchar, hconfig, List.length_cons, Nat.succ_mul]
    omega

/-! ### The character writes of a text, accepted and performed to their end -/

/-- The character writes of a text and then the rest of a list, which begins READY, quiet and settled. -/
theorem plays_str_append {t : Text} {s u : State} {d : Nat} {items : List SeqItem}
    (hs : ReadyQuiet s (t.length * charTime s.config + d)) (hsettled : TransferSettled s)
    (hrest : ReadyQuiet (t.foldl afterChar s) d → TransferSettled (t.foldl afterChar s) →
      Plays items (t.foldl afterChar s) u) : Plays (strSeq s.config t ++ items) s u := by
  induction t generalizing s with
  | nil => exact hrest (by simpa using hs) hsettled
  | cons x t ih =>
    have htime : ReadyQuiet s (charTime s.config + (t.length * charTime s.config + d)) :=
      readyQuiet_mono hs (by rw [List.length_cons, Nat.succ_mul]; omega)
    have hchar : Plays (charSeq s.config x) s (afterChar s x) :=
      plays_xfer_holds [s.config.tChar] (readyQuiet_mono htime (Nat.le_add_right _ _)) hsettled
    have hquiet : ReadyQuiet (afterChar s x) (t.length * charTime s.config + d) :=
      readyQuiet_afterTransfer true x s.config.tChar [s.config.tChar] htime
    rw [strSeq, List.flatMap_cons, List.append_assoc]
    exact plays_append.mpr ⟨_, hchar,
      ih hquiet (transferSettled_afterTransfer s true x (Nat.le_refl s.config.tChar)) hrest⟩

/-- The character writes of a text play to their end when no reset comes before it. -/
theorem plays_str {t : Text} {s : State} (hs : ReadyQuiet s (t.length * charTime s.config))
    (hsettled : TransferSettled s) :
    Plays (strSeq s.config t) s (t.foldl afterChar { s with seq := [] }) := by
  rw [← List.append_nil (strSeq s.config t)]
  refine plays_str_append (d := 0) hs hsettled fun hquiet _ => ?_
  obtain ⟨hp, -⟩ := hquiet
  rw [plays_nil, foldl_afterChar_emptied]
  simp [loaded, ← hp]

/-- WRITESTR completes with the character writes of its text. -/
theorem completes_writestr {t : Text} {s : State} (hs : ReadyQuiet s (t.length * charTime s.config))
    (hsettled : TransferSettled s) : Completes (.writestr t) s (t.foldl afterChar { s with seq := [] }) :=
  (completes_iff_plays _ rfl hs.1).mpr (plays_str hs hsettled)

/-- An operation accepted in s has at most one end. -/
theorem completes_unique {i : Instr} {s u v : State} (hu : Completes i s u) (hv : Completes i s v) : u = v := by
  obtain ⟨a, ha, hu⟩ := hu
  obtain ⟨b, hb, hv⟩ := hv
  cases ha.symm.trans hb
  cases hu.symm.trans hv
  rfl

/-! ### The operations -/

/-- Settles O33: the character writes of the text; the list of an empty text is empty, so acceptance ends it. -/
theorem writestrCompletes : Obligations.WritestrCompletes := by
  refine ⟨fun t s hs hsettled => ⟨rfl, completes_writestr hs hsettled⟩, fun s hp => ?_⟩
  have haccept : exec (.writestr []) s = .next { s with seq := [] } := by
    rw [show exec (.writestr []) s = accept [] s from rfl, accept_ready [] hp]
    simp [← hp]
  exact ⟨haccept, _, haccept, rfl⟩

/-- Settles O34: the two texts around one named command, each from the READY, quiet and settled state the one before
leaves. -/
theorem writemsgCompletes : Obligations.WritemsgCompletes := by
  intro t1 t2 s hs hsettled
  have hready : s.phase = .ready := hs.1
  have hcompletes : Completes (.writemsg t1 t2) s (t2.foldl afterChar
      (afterCommand (t1.foldl afterChar s) (0x80 ||| s.config.line2Base.setWidth 8) s.config.tAddr)) := by
    refine (completes_iff_plays _ rfl hready).mpr ?_
    have htimes := readyQuiet_mono hs (d' := t1.length * charTime s.config +
      (transferTime s.config + s.config.tAddr + t2.length * charTime s.config)) (by rw [Nat.add_mul]; omega)
    rw [List.append_assoc]
    refine plays_str_append htimes hsettled fun h1 hsettled1 => ?_
    rw [← foldl_afterChar_config t1 s] at h1 ⊢
    exact plays_cmd_append h1 hsettled1 fun h2 hsettled2 => plays_str h2 hsettled2
  refine ⟨rfl, hcompletes, fun ⟨_, hline2, _⟩ => ?_⟩
  have hbyte : 0x80 ||| s.config.line2Base.setWidth 8 = 0xC0 := by rw [hline2]; rfl
  rwa [hbyte] at hcompletes

/-- Settles O36: WRITESTR ends only in what its character writes leave, and each adds one data entry and its time. -/
theorem textIsLoggedInOrder : Obligations.TextIsLoggedInOrder := by
  intro t s u hs hsettled hu
  obtain rfl := completes_unique hu (completes_writestr hs hsettled)
  exact ⟨foldl_afterChar_busLog t _, foldl_afterChar_now t _⟩

end Sys2Proof.Proofs
end

section
/-! SUPPORT. Proofs of the statements about the two devices' reactions to edges (60_exceptions.md R214 to R220) and about
READY with no request (R223), each read off what a step can do. -/

namespace Sys2Proof.Proofs

open Sys2Proof.Machine Sys2Proof.Laws

/-- Settles O16: READY takes the next host action, and there is none. -/
theorem readyWaits : Obligations.ReadyWaits := by
  intro s hp hd hh
  simp only [step_ready hp hd, takeHostAction, hh]

/-- Settles O38: the encoding decodes to the row, and a decoded byte is logged as it stands. -/
theorem busBytesAreTaken : Obligations.BusBytesAreTaken := by
  intro i rs x s hi
  have hd : decode (encode i) = some i := decodeOfEncode i
  rw [hi] at hd
  exact exec_decodeBus hd s

/-! ### The edges of one step -/

/-- Driving line p to v leaves the level of every other line, and p has level v. -/
theorem pins_get_drive (t : Pins) (p l : Pin) (v : Bool) : (t.drive p v).get l = if p = l then v else t.get l := by
  split
  · rename_i h; subst h; exact pins_get_drive_same t p v
  · rename_i h; exact pins_get_drive_other t p l v (Ne.symm h)

/-- Line l rises exactly when it is the line driven, and its drive is a rise. -/
theorem rises_iff_levels (t : Pins) (p l : Pin) (v : Bool) :
    (p = l ∧ t.rises p v = true) ↔ (t.get l = false ∧ (t.drive p v).get l = true) := by
  rw [rises_line_iff, pins_get_drive]
  split
  · rename_i h; simp [h, and_comm]
  · rename_i h; simp [h]

/-- Line l falls exactly when it is the line driven, and its drive is a fall. -/
theorem falls_iff_levels (t : Pins) (p l : Pin) (v : Bool) :
    (p = l ∧ t.falls p v = true) ↔ (t.get l = true ∧ (t.drive p v).get l = false) := by
  rw [pins_get_drive]
  split
  · rename_i h; simp [h, Pins.falls]
  · rename_i h; simp [h]

/-- What a step does to the lines and the shift register: it drives one line, to which the register reacts; or it leaves
the register as it is and raises no line. -/
theorem step_lines_register {s t : State} (h : step s = .next t) :
    (∃ p v, t.pins = s.pins.drive p v ∧ t.sr = srAfter s.pins s.sr p v ∧ t.q = qAfter s.pins s.sr s.q p v) ∨
    ((t.pins = s.pins ∨ t.pins = Pins.low) ∧ t.sr = s.sr ∧ t.q = s.q) := by
  obtain ⟨time, -, -, rfl⟩ | ⟨-, -, -, rfl⟩ | ⟨-, -, d, rest, -, rfl⟩ | ⟨-, -, r, rest, i, items, -, -, -, rfl⟩ |
    ⟨-, -, -, rfl⟩ | ⟨-, -, d, need, rest, -, rfl⟩ | ⟨-, -, p, v, need, rest, -, -, -, rfl⟩ |
    ⟨-, -, need, rest, x, -, -, -, rfl⟩ := step_next_cases h
  case inr.inr.inr.inr.inr.inr.inl => exact .inl ⟨p, v, rfl, rfl, rfl⟩
  case inr.inr.inr.inr.inr.inr.inr => exact .inl ⟨.e, false, rfl, rfl, rfl⟩
  case inl => exact .inr ⟨.inr rfl, rfl, rfl⟩
  all_goals exact .inr ⟨.inl rfl, rfl, rfl⟩

/-- No line rises where the lines stay or are forced low. -/
theorem no_rise_of_held_or_low {p p' : Pins} (h : p' = p ∨ p' = Pins.low) (l : Pin) :
    ¬(p.get l = false ∧ p'.get l = true) := by
  rintro ⟨h0, h1⟩
  obtain rfl | rfl := h
  · rw [h0] at h1; cases h1
  · cases l <;> cases h1

/-- In every step the shift stages move exactly when SRCLK rises. -/
theorem step_sr {s t : State} (h : step s = .next t) :
    t.sr = if s.pins.get .srclk = false ∧ t.pins.get .srclk = true then s.sr.shiftIn s.pins.ser else s.sr := by
  obtain ⟨p, v, hp, hsr, -⟩ | ⟨hp, hsr, -⟩ := step_lines_register h
  · simp only [hsr, hp, srAfter, rises_iff_levels]
  · rw [hsr, if_neg (no_rise_of_held_or_low hp .srclk)]

/-- In every step the storage outputs change exactly when RCLK rises. -/
theorem step_q {s t : State} (h : step s = .next t) :
    t.q = if s.pins.get .rclk = false ∧ t.pins.get .rclk = true then s.sr else s.q := by
  obtain ⟨p, v, hp, -, hq⟩ | ⟨hp, -, hq⟩ := step_lines_register h
  · simp only [hq, hp, qAfter, rises_iff_levels]
  · rw [hq, if_neg (no_rise_of_held_or_low hp .rclk)]

/-- Settles O41: the one line a step drives shifts the stages exactly when it is a rise of SRCLK. -/
theorem stagesShiftExactlyOnSrclkRise : Obligations.StagesShiftExactlyOnSrclkRise := fun _ _ h => step_sr h

/-- Settles O42: the one line a step drives latches the stages exactly when it is a rise of RCLK. -/
theorem outputsLatchExactlyOnRclkRise : Obligations.OutputsLatchExactlyOnRclkRise := fun _ _ h => step_q h

/-- Settles O40: the one step that logs is the fall of E with a known byte; no other step lowers E but a reset. -/
theorem busLogGrowsOnlyAtAFallOfE : Obligations.BusLogGrowsOnlyAtAFallOfE := by
  intro s t hd h
  have held : ∀ u : State, u.pins = s.pins → u.busLog = s.busLog →
      ¬(s.pins.e = true ∧ u.pins.e = false) ∧ u.busLog = s.busLog := fun u hp hb => ⟨by simp [hp], hb⟩
  obtain ⟨time, hr, -⟩ | ⟨-, -, -, rfl⟩ | ⟨-, -, d, rest, -, rfl⟩ | ⟨-, -, r, rest, i, items, -, -, -, rfl⟩ |
    ⟨-, -, -, rfl⟩ | ⟨-, -, d, need, rest, -, rfl⟩ | ⟨-, -, p, v, need, rest, -, hf, -, rfl⟩ |
    ⟨-, -, need, rest, x, -, he, hx, rfl⟩ := step_next_cases h
  case inl => rw [hd] at hr; cases hr
  case inr.inr.inr.inr.inr.inr.inl =>
    rw [falls_iff_levels] at hf
    exact .inr ⟨hf, rfl⟩
  case inr.inr.inr.inr.inr.inr.inr => exact .inl ⟨he, rfl, x, ofByte_of_byte? hx, rfl⟩
  all_goals exact .inr (held _ rfl rfl)

end Sys2Proof.Proofs
end

section
/-! SUPPORT. Proofs of the statements about refusals and faults (60_exceptions.md R201 to R209): the launch check names a
parameter that breaks a constraint exactly when one is broken; and `step_stops` says once what stops a step: that check, a
reset outside READY, the request decoder, and the two edges of E. -/

namespace Sys2Proof.Proofs

open Sys2Proof.Machine Sys2Proof.Laws Sys2Proof.Safety

/-! ### The launch check (R204; 00_scope.md R8) -/

/-- No line is named exactly when the identities differ from each other and from those seen. -/
theorem pinClash_eq_none_iff (seen : List Nat) (lines : List (Pin × Nat)) : pinClash seen lines = none ↔
    (lines.map Prod.snd).Nodup ∧ ∀ n ∈ lines.map Prod.snd, n ∉ seen := by
  induction lines generalizing seen with
  | nil => simp [pinClash]
  | cons b lines ih =>
    obtain ⟨p, n⟩ := b
    rw [pinClash, List.map_cons, List.nodup_cons, List.forall_mem_cons]
    split
    · rename_i hseen; simp [hseen]
    · rename_i hseen
      rw [ih]
      constructor
      · rintro ⟨hnodup, hnew⟩
        exact ⟨⟨fun hn => hnew n hn (List.mem_cons_self ..), hnodup⟩, hseen,
          fun m hm hms => hnew m hm (List.mem_cons_of_mem n hms)⟩
      · rintro ⟨⟨hn, hnodup⟩, -, hnew⟩
        refine ⟨hnodup, fun m hm hms => ?_⟩
        obtain rfl | hms := List.mem_cons.mp hms
        · exact hn hm
        · exact hnew m hm hms

/-- The line named shares its identity with one seen or with another line of the list. -/
theorem pinClash_eq_some {seen : List Nat} {lines : List (Pin × Nat)} {p : Pin}
    (hlines : (lines.map Prod.fst).Nodup) (h : pinClash seen lines = some p) :
    ∃ n, (p, n) ∈ lines ∧ (n ∈ seen ∨ ∃ p', p' ≠ p ∧ (p', n) ∈ lines) := by
  induction lines generalizing seen with
  | nil => cases h
  | cons b lines ih =>
    obtain ⟨p0, n0⟩ := b
    rw [List.map_cons, List.nodup_cons] at hlines
    obtain ⟨hp0, hlines⟩ := hlines
    rw [pinClash] at h
    split at h
    · rename_i hseen
      cases h
      exact ⟨n0, List.mem_cons_self .., .inl hseen⟩
    · obtain ⟨n, hn, hclash⟩ := ih hlines h
      refine ⟨n, List.mem_cons_of_mem _ hn, ?_⟩
      have hne : p0 ≠ p := fun he => hp0 (List.mem_map.mpr ⟨(p, n), hn, he.symm⟩)
      obtain hseen | ⟨p', hp', hp'n⟩ := hclash
      · obtain rfl | hseen := List.mem_cons.mp hseen
        · exact .inr ⟨p0, hne, List.mem_cons_self ..⟩
        · exact .inl hseen
      · exact .inr ⟨p', hp', List.mem_cons_of_mem _ hp'n⟩

/-- A bound line stands with its identity. -/
theorem mem_boundLines {c : Config} {p : Pin} {n : Nat} (h : (p, n) ∈ boundLines c) : c.identity p = n := by
  simp only [boundLines, List.mem_cons, Prod.mk.injEq, List.not_mem_nil, or_false] at h
  obtain ⟨rfl, rfl⟩ | ⟨rfl, rfl⟩ | ⟨rfl, rfl⟩ | ⟨rfl, rfl⟩ | ⟨rfl, rfl⟩ | ⟨rfl, rfl⟩ := h <;> rfl

/-- The line the launch check names shares its identity with another line. -/
theorem breaks_of_pinClash {c : Config} {p : Pin} (h : pinClash [] (boundLines c) = some p) : Breaks c (.pin p) := by
  have hlines : ((boundLines c).map Prod.fst).Nodup := by
    rw [show (boundLines c).map Prod.fst = [.ser, .rclk, .srclk, .e, .rw, .rs] from rfl]; decide
  obtain ⟨n, hn, hseen | ⟨p', hne, hn'⟩⟩ := pinClash_eq_some hlines h
  · cases hseen
  · exact ⟨p', hne, (mem_boundLines hn').trans (mem_boundLines hn).symm⟩

/-- The parameter the launch check names breaks a constraint. -/
theorem breaks_of_configViolation {c : Config} {p : Param} (h : configViolation c = some p) : Breaks c p := by
  unfold configViolation at h
  split_ifs at h with htS htEn htClr htW1 htW3 hwaits
  · cases h; exact Nat.not_le_of_lt htS
  · cases h; exact Nat.not_le_of_lt htEn
  · cases h; exact Nat.not_le_of_lt htClr
  · cases h; exact .inl (Nat.not_le_of_lt htW1)
  · cases h; exact .inl (Nat.not_le_of_lt htW3)
  · cases h; exact .inr (Nat.not_lt_of_le hwaits)
  · obtain ⟨q, hq, rfl⟩ := Option.map_eq_some_iff.mp h
    exact breaks_of_pinClash hq

/-- The launch check passes exactly the configurations that keep every constraint. -/
theorem configViolation_eq_none_iff (c : Config) : configViolation c = none ↔ ConfigValid c := by
  have hpins : pinClash [] (boundLines c) = none ↔
      [c.pinSer, c.pinRclk, c.pinSrclk, c.pinE, c.pinRw, c.pinRs].Nodup := by
    rw [pinClash_eq_none_iff]
    exact and_iff_left fun n _ hn => nomatch hn
  unfold configViolation ConfigValid
  split_ifs with htS htEn htClr htW1 htW3 hwaits
  case neg =>
    rw [Option.map_eq_none_iff, hpins]
    exact ⟨fun h => ⟨by omega, by omega, by omega, by omega, by omega, by omega, h⟩, fun ⟨_, _, _, _, _, _, h⟩ => h⟩
  all_goals
    simp only [false_iff]
    omega

/-- A configuration that breaks a constraint is caught by the launch check. -/
theorem exists_configViolation {c : Config} (h : ¬ ConfigValid c) : ∃ p, configViolation c = some p :=
  Option.ne_none_iff_exists'.mp fun hnone => h ((configViolation_eq_none_iff c).mp hnone)

/-- At launch the check reads the configuration. -/
theorem launchViolation_of_launch {s : State} (hp : s.phase = .wake) (ht : s.trace = []) :
    launchViolation s = configViolation s.config := if_pos ⟨hp, ht⟩

/-- The launch check is made at launch only, and names a parameter that breaks a constraint. -/
theorem launchViolation_cause {s : State} {p : Param} (h : launchViolation s = some p) :
    s.phase = .wake ∧ s.trace = [] ∧ ¬ ConfigValid s.config ∧ Breaks s.config p := by
  unfold launchViolation at h
  split_ifs at h with hlaunch
  obtain ⟨hp, ht⟩ := hlaunch
  refine ⟨hp, ht, fun hvalid => ?_, breaks_of_configViolation h⟩
  rw [(configViolation_eq_none_iff _).mpr hvalid] at h
  cases h

/-- A broken launch check is the step's refusal. -/
theorem step_launch_refusal {s : State} {p : Param} (h : launchViolation s = some p) :
    step s = .refused (.badConfiguration p) := by
  simp only [step, h]

/-! ### What stops a step (R201, R202, R208) -/

/-- Sampling with an unknown bit on the bus faults (R206). -/
theorem sample_unknown {s : State} (need : Nat) (h : s.q.byte? = none) :
    sample s need = .fault (.unknownBusValue s.now s.trace.length s.q (s.fallE need)) := by
  simp only [sample, State.db, h]

/-- Performing an action goes on, or faults at a rise of E too early, or at a fall of E with an unknown bit on the bus. -/
theorem perform_cases (it : SeqItem) (s : State) :
    (∃ t, perform it s = .next t) ∨
    (it.action = .set .e true ∧ ∃ tFall required, timingBreach s = some (tFall, required) ∧ perform it s =
      .fault (.lcdTimingViolation s.now s.trace.length tFall required ((s.retire (.set .e true)).setPin .e true))) ∨
    (it.action = .set .e false ∧ s.pins.e = true ∧ s.q.byte? = none ∧ perform it s =
      .fault (.unknownBusValue s.now s.trace.length s.q (s.fallE it.need))) := by
  obtain ⟨a, need⟩ := it
  cases a with
  | wait d => exact .inl ⟨_, rfl⟩
  | set p v =>
    obtain ⟨rfl, hf, hs⟩ | ⟨-, rfl, rfl, tFall, required, hb, hs⟩ | ⟨-, -, hs⟩ := performSet_cases p v need s
    · obtain ⟨he, rfl⟩ : s.pins.e = true ∧ v = false := by simpa [Pins.falls, Pins.get] using hf
      cases hx : s.q.byte? with
      | some x => exact .inl ⟨_, hs.trans (sample_known need hx)⟩
      | none => exact .inr (.inr ⟨rfl, he, rfl, hs.trans (sample_unknown need hx)⟩)
    · exact .inr (.inl ⟨rfl, tFall, required, hb, hs⟩)
    · exact .inl ⟨_, hs⟩

/-- Running the sequence goes on, or stops with the fault of its head action. -/
theorem runSequence_cases (s : State) :
    (∃ t, runSequence s = .next t) ∨ (∃ it rest, s.seq = it :: rest ∧ runSequence s = perform it s) := by
  cases hq : s.seq with
  | nil => exact .inl ⟨{ s with phase := .ready }, by simp only [runSequence, hq]⟩
  | cons it rest => exact .inr ⟨it, rest, rfl, by simp only [runSequence, hq]⟩

/-- Taking a host action goes on, or refuses the request that the decoder refuses. -/
theorem takeHostAction_cases (s : State) :
    (∃ t, takeHostAction s = .next t) ∨
    (∃ r rest e, s.host = .req r :: rest ∧ decodeReq r = .error e ∧
      takeHostAction s = .refused (refuseRequest r e)) := by
  cases hh : s.host with
  | nil => exact .inl ⟨s, by simp only [takeHostAction, hh]⟩
  | cons a rest =>
    cases a with
    | idle d => exact .inl ⟨idle d { s with host := rest }, by simp only [takeHostAction, hh]⟩
    | req r =>
      cases hi : decodeReq r with
      | ok i =>
        obtain ⟨t, ht⟩ := exec_next i { s with host := rest }
        exact .inl ⟨t, by simp only [takeHostAction, hh, presentRequest, hi, ht]⟩
      | error e => exact .inr ⟨r, rest, e, rfl, hi, by simp only [takeHostAction, hh, presentRequest, hi]⟩

/-- What a step that answers no next state stops with. -/
theorem step_stops (s : State) :
    (∃ t, step s = .next t) ∨
    (∃ p, launchViolation s = some p ∧ step s = .refused (.badConfiguration p)) ∨
    (∃ time, resetDue s = some time ∧ s.phase ≠ .ready ∧ step s = .refused (.resetDuringOperation time)) ∨
    (∃ r rest e, s.phase = .ready ∧ s.host = .req r :: rest ∧ decodeReq r = .error e ∧
      step s = .refused (refuseRequest r e)) ∨
    (∃ need rest tFall required, s.phase ≠ .ready ∧ s.seq = ⟨.set .e true, need⟩ :: rest ∧
      timingBreach s = some (tFall, required) ∧ step s =
        .fault (.lcdTimingViolation s.now s.trace.length tFall required ((s.retire (.set .e true)).setPin .e true))) ∨
    (∃ need rest, s.phase ≠ .ready ∧ s.seq = ⟨.set .e false, need⟩ :: rest ∧ s.pins.e = true ∧ s.q.byte? = none ∧
      step s = .fault (.unknownBusValue s.now s.trace.length s.q (s.fallE need))) := by
  obtain ⟨p, hl, hs⟩ | ⟨-, time, hd, hs⟩ | ⟨-, -, hp, hs⟩ | ⟨-, -, hp, hs⟩ := step_cases s <;> rw [hs]
  · exact .inr (.inl ⟨p, hl, rfl⟩)
  · obtain ⟨-, ht⟩ | ⟨hp, ht⟩ := takeReset_cases time s
    · exact .inl ⟨_, ht⟩
    · exact .inr (.inr (.inl ⟨time, hd, hp, ht⟩))
  · obtain hn | ⟨r, rest, e, hh, he, ht⟩ := takeHostAction_cases s
    · exact .inl hn
    · exact .inr (.inr (.inr (.inl ⟨r, rest, e, hp, hh, he, ht⟩)))
  · obtain hn | ⟨⟨a, need⟩, rest, hq, hr⟩ := runSequence_cases s
    · exact .inl hn
    · rw [hr]
      obtain hn | ⟨rfl, tFall, required, hb, ht⟩ | ⟨rfl, he, hx, ht⟩ := perform_cases ⟨a, need⟩ s
      · exact .inl hn
      · exact .inr (.inr (.inr (.inr (.inl ⟨need, rest, tFall, required, hp, hq, hb, ht⟩))))
      · exact .inr (.inr (.inr (.inr (.inr ⟨need, rest, hp, hq, he, hx, ht⟩))))

/-- What a step that refuses refuses. -/
theorem step_refused_cases {s : State} {r : Refusal} (h : step s = .refused r) :
    (∃ p, launchViolation s = some p ∧ r = .badConfiguration p) ∨
    (∃ time, resetDue s = some time ∧ s.phase ≠ .ready ∧ r = .resetDuringOperation time) ∨
    (∃ req rest e, s.phase = .ready ∧ s.host = .req req :: rest ∧ decodeReq req = .error e ∧
      r = refuseRequest req e) := by
  obtain ⟨t, hs⟩ | ⟨p, hl, hs⟩ | ⟨time, hd, hp, hs⟩ | ⟨req, rest, e, hp, hh, he, hs⟩ |
    ⟨need, rest, tFall, required, -, -, -, hs⟩ | ⟨need, rest, -, -, -, -, hs⟩ := step_stops s <;> cases hs.symm.trans h
  · exact .inl ⟨p, hl, rfl⟩
  · exact .inr (.inl ⟨time, hd, hp, rfl⟩)
  · exact .inr (.inr ⟨req, rest, e, hp, hh, he, rfl⟩)

/-- What a step that faults faults with. -/
theorem step_fault_cases {s : State} {f : Fault} (h : step s = .fault f) : s.phase ≠ .ready ∧
    ((∃ need rest tFall required, s.seq = ⟨.set .e true, need⟩ :: rest ∧ timingBreach s = some (tFall, required) ∧
      f = .lcdTimingViolation s.now s.trace.length tFall required ((s.retire (.set .e true)).setPin .e true)) ∨
    (∃ need rest, s.seq = ⟨.set .e false, need⟩ :: rest ∧ s.pins.e = true ∧ s.q.byte? = none ∧
      f = .unknownBusValue s.now s.trace.length s.q (s.fallE need))) := by
  obtain ⟨t, hs⟩ | ⟨p, -, hs⟩ | ⟨time, -, -, hs⟩ | ⟨req, rest, e, -, -, -, hs⟩ |
    ⟨need, rest, tFall, required, hp, hq, hb, hs⟩ | ⟨need, rest, hp, hq, he, hx, hs⟩ := step_stops s <;>
    cases hs.symm.trans h
  · exact ⟨hp, .inl ⟨need, rest, tFall, required, hq, hb, rfl⟩⟩
  · exact ⟨hp, .inr ⟨need, rest, hq, he, hx, rfl⟩⟩

/-! ### Refusals -/

/-- The head action takes no time, or is a wait of it. -/
theorem headWait_cases (s : State) :
    headWait s = 0 ∨ ∃ d need rest, s.seq = ⟨.wait d, need⟩ :: rest ∧ headWait s = d := by
  unfold headWait
  split
  · rename_i d need rest hq; exact .inr ⟨d, need, rest, hq, rfl⟩
  · exact .inl rfl

/-- A reset that is due is the next one; its time has come, or comes inside the wait that is about to run. -/
theorem resetDue_eq_some {s : State} {time : Nat} (h : resetDue s = some time) : ∃ later, s.resets = time :: later ∧
    (time ≤ s.now ∨ ∃ d need rest, s.seq = ⟨.wait d, need⟩ :: rest ∧ time < s.now + d) := by
  unfold resetDue at h
  split at h
  · rename_i r later hr
    split_ifs at h with hdue
    cases h
    refine ⟨later, hr, ?_⟩
    obtain hnow | ⟨-, hwait⟩ := hdue
    · exact .inl hnow
    · obtain h0 | ⟨d, need, rest, hq, hd⟩ := headWait_cases s
      · exact .inl (by omega)
      · exact .inr ⟨d, need, rest, hq, hd ▸ hwait⟩
  · cases h

/-- Settles O13, by the three stops of a step that are refusals, each with its cause. -/
theorem refusalsHaveTheirCauses : Obligations.RefusalsHaveTheirCauses := by
  intro s r h
  obtain ⟨p, hl, rfl⟩ | ⟨time, hd, hp, rfl⟩ | ⟨req, rest, e, hp, hh, he, rfl⟩ := step_refused_cases h
  · obtain ⟨hp, ht, hbad, hbreaks⟩ := launchViolation_cause hl
    exact .inr (.inl ⟨p, hp, ht, hbad, hbreaks, rfl⟩)
  · obtain ⟨later, hr, hcause⟩ := resetDue_eq_some hd
    exact .inl ⟨time, later, hr, hp, rfl, hcause⟩
  · refine .inr (.inr ⟨req, rest, hp, hh, ?_⟩)
    cases e with
    | reservedOpcode => exact .inl ⟨he, rfl⟩
    | reservedField => exact .inr (.inl ⟨he, rfl⟩)
    | textOperand => exact .inr (.inr ⟨he, rfl⟩)

/-- Settles O51: the launch check names a broken parameter where there is one, and no other stop is that refusal. -/
theorem badConfigurationRefusedAtLaunch : Obligations.BadConfigurationRefusedAtLaunch := by
  intro s hp ht
  have hcheck := launchViolation_of_launch hp ht
  refine ⟨fun hbad => ?_, fun hvalid p h => ?_⟩
  · obtain ⟨p, hc⟩ := exists_configViolation hbad
    exact ⟨p, breaks_of_configViolation hc, step_launch_refusal (hcheck.trans hc)⟩
  · obtain ⟨time, later, -, -, hr, -⟩ | ⟨q, -, -, hbad, -⟩ | ⟨req, rest, hready, -⟩ := refusalsHaveTheirCauses s _ h
    · cases hr
    · exact hbad hvalid
    · rw [hp] at hready; cases hready

/-! ### Faults -/

/-- A breach of the settle time is a rise of E less than the need after the last fall (R205). -/
theorem timingBreach_eq_some_iff {s : State} {tFall required : Nat} : timingBreach s = some (tFall, required) ↔
    s.lastXfer = some (tFall, required) ∧ s.now - tFall < required := by
  unfold timingBreach
  split
  · rename_i a b hx
    split <;> rename_i hlt
    · simp only [hx, Option.some.injEq, Prod.mk.injEq]
      exact ⟨fun ⟨ha, hb⟩ => ⟨⟨ha, hb⟩, ha ▸ hb ▸ hlt⟩, fun ⟨hab, _⟩ => hab⟩
    · simp only [hx, Option.some.injEq, Prod.mk.injEq, reduceCtorEq, false_iff]
      rintro ⟨⟨rfl, rfl⟩, h⟩
      exact hlt h
  · rename_i hx; simp [hx]

/-- Settles O45, by the two stops of a step that are faults. -/
theorem faultsOnlyAtEnableEdges : Obligations.FaultsOnlyAtEnableEdges := by
  intro s f h
  obtain ⟨hp, ⟨need, rest, tFall, required, hq, hb, rfl⟩ | ⟨need, rest, hq, he, -, rfl⟩⟩ := step_fault_cases h
  · obtain ⟨hx, hlt⟩ := timingBreach_eq_some_iff.mp hb
    exact ⟨hp, .inl ⟨need, rest, tFall, required, _, hq, hx, hlt, rfl⟩⟩
  · exact ⟨hp, .inr ⟨need, rest, _, hq, he, rfl⟩⟩

/-- Raising E too early faults, with the action performed (R205, R209). -/
theorem perform_rise_breach {s : State} {need tFall required : Nat} (hb : timingBreach s = some (tFall, required)) :
    perform ⟨.set .e true, need⟩ s = .fault
      (.lcdTimingViolation s.now s.trace.length tFall required ((s.retire (.set .e true)).setPin .e true)) := by
  have hf : s.pins.falls .e true = false := Bool.and_false _
  simp [perform, performSet, hf, hb]

/-- Settles O43: the settle check is the only branch of a rise of E. -/
theorem timingFaultAtEnableRise : Obligations.TimingFaultAtEnableRise := by
  intro s n rest hp hd hl hq
  have hstep : step s = perform ⟨.set .e true, n⟩ s := step_running hp hd hl hq
  refine ⟨(s.retire (.set .e true)).setPin .e true, ?_, fun tFall need hx hlt => ?_, fun hsettled => ?_⟩
  · simp only [State.retire, hq]
    rfl
  · exact hstep.trans (perform_rise_breach (timingBreach_eq_some_iff.mpr ⟨hx, hlt⟩))
  · exact hstep.trans (perform_set_no_breach n (by simp [Pins.falls]) fun _ _ => (timingBreach_none_iff s).mpr hsettled)

end Sys2Proof.Proofs
end

section
/-! SUPPORT. The lines are safe in every run (70_reset_and_hazards.md R238, R240): every action list SRLCD loads is safe from
quiet lines whatever the shift register holds, so a run starts with safe lines and every step keeps them; hence no run
samples an unknown bit (60_exceptions.md R206). -/

namespace Sys2Proof.Proofs

open Sys2Proof.Machine Sys2Proof.Laws Sys2Proof.Safety

/-! ### Lists that are safe from quiet lines -/

/-- The list is safe from quiet lines, whatever the shift register holds. -/
def SafeFromQuiet (items : List SeqItem) : Prop :=
  ∀ (p : Pins) (sr q : Stages), quiet p = true → safeSeq p sr q items = true

theorem safeFromQuiet_nil : SafeFromQuiet [] := fun _ _ _ hp => hp

/-- A safe list ends quiet, so one that is safe from quiet lines may follow. -/
theorem safeSeq_append {p : Pins} {sr q : Stages} {l l' : List SeqItem} (hl : safeSeq p sr q l = true)
    (hl' : SafeFromQuiet l') : safeSeq p sr q (l ++ l') = true := by
  induction l generalizing p sr q with
  | nil => exact hl' p sr q hl
  | cons it l ih =>
    obtain ⟨a, need⟩ := it
    cases a with
    | wait d => exact ih hl
    | set pin v =>
      simp only [safeSeq, List.cons_append, Bool.and_eq_true] at hl ⊢
      obtain ⟨hhead, hrest⟩ := hl
      exact ⟨hhead, ih hrest⟩

theorem SafeFromQuiet.append {l l' : List SeqItem} (hl : SafeFromQuiet l) (hl' : SafeFromQuiet l') :
    SafeFromQuiet (l ++ l') := fun p sr q hp => safeSeq_append (hl p sr q hp) hl'

/-- A wait is always safe. -/
theorem safeFromQuiet_hold (d : Nat) : SafeFromQuiet [hold d] := fun _ _ _ hp => hp

/-- An action that neither drives E nor raises RW. -/
def calm : Action → Bool
  | .set l v => !decide (l = .e) && (!decide (l = .rw) || !v)
  | .wait _ => true

/-- While E is low, calm actions are safe, and lead to what follows them. -/
theorem safeSeq_calm {items : List SeqItem} (hc : (items.all fun it => calm it.action) = true) {p : Pins}
    (hp : p.e = false) (sr q : Stages) (rest : List SeqItem) : safeSeq p sr q (items ++ rest) =
      safeSeq (devAfter p sr q (items.map (·.action))).1 (devAfter p sr q (items.map (·.action))).2.1
        (devAfter p sr q (items.map (·.action))).2.2 rest := by
  induction items generalizing p sr q with
  | nil => rfl
  | cons it items ih =>
    obtain ⟨a, need⟩ := it
    rw [List.all_cons, Bool.and_eq_true] at hc
    obtain ⟨ha, hc⟩ := hc
    cases a with
    | wait d => exact ih hc hp sr q
    | set l v =>
      obtain ⟨hl, hrw⟩ : l ≠ .e ∧ (l = .rw → v = false) := by
        simpa [calm, imp_iff_not_or] using ha
      have he : (p.drive l v).e = false := (pins_get_drive_other p l .e v hl.symm).trans hp
      have hsafe : (!decide (l = .rw) || !v) = true := by simpa [imp_iff_not_or] using hrw
      rw [List.cons_append, safeSeq, hsafe]
      simpa [hp, hl, devAfter] using ih hc he (srAfter p sr l v) (qAfter p sr q l v)

/-- A list of safe lists is safe. -/
theorem safeFromQuiet_flatMap {α : Type} {f : α → List SeqItem} (l : List α) (hf : ∀ a, SafeFromQuiet (f a)) :
    SafeFromQuiet (l.flatMap f) := by
  induction l with
  | nil => exact safeFromQuiet_nil
  | cons a l ih => exact (hf a).append ih

/-! ### The lists of the spec -/

/-- A shifted bit is safe (40_shift.md R101). -/
theorem safeFromQuiet_bitSeq (c : Config) (b : Bool) : SafeFromQuiet (bitSeq c b) := by
  rintro ⟨ser, srclk, rclk, e, rw', rs⟩ sr q hp
  obtain ⟨rfl, rfl, rfl, rfl⟩ := (quiet_iff _).mp hp
  rfl

/-- A latch is safe (R103). -/
theorem safeFromQuiet_latchSeq (c : Config) : SafeFromQuiet (latchSeq c) := by
  rintro ⟨ser, srclk, rclk, e, rw', rs⟩ sr q hp
  obtain ⟨rfl, rfl, rfl, rfl⟩ := (quiet_iff _).mp hp
  rfl

/-- A shifted byte is safe (R102). -/
theorem safeFromQuiet_byteSeq (c : Config) (x : Byte) : SafeFromQuiet (byteSeq c x) :=
  safeFromQuiet_flatMap _ fun _ => safeFromQuiet_bitSeq c _

/-- A put byte is safe (R105). -/
theorem safeFromQuiet_putByteSeq (c : Config) (x : Byte) : SafeFromQuiet (putByteSeq c x) :=
  (safeFromQuiet_byteSeq c x).append (safeFromQuiet_latchSeq c)

/-- With a known byte on the storage outputs an enable pulse is safe (41_lcd_transfer.md R120; 60_exceptions.md R206). -/
theorem safeSeq_pulse_e (c : Config) (th need : Nat) {p : Pins} {q : Stages} (hp : quiet p = true) (sr : Stages)
    (hq : q.byte?.isSome = true) : safeSeq p sr q (pulse c .e th need) = true := by
  obtain ⟨ser, srclk, rclk, e, rw', rs⟩ := p
  obtain ⟨rfl, rfl, rfl, rfl⟩ := (quiet_iff _).mp hp
  simp [pulse, drivePin, hold, safeSeq, Pins.falls, Pins.get, Pins.drive, qAfter, quiet, hq]

/-- A transfer is safe: it latches its whole byte before E falls, whatever the stages held (R120; 60_exceptions.md R206). -/
theorem safeFromQuiet_xferSeq (c : Config) (rs : Bool) (x : Byte) (need : Nat) :
    SafeFromQuiet (xferSeq c rs x need) := by
  intro p sr q hp
  obtain ⟨hsrclk, hrclk, he, -⟩ := (quiet_iff p).mp hp
  let lines := [drivePin .rs rs, hold c.tS, drivePin .rw false, hold c.tS]
  have hlist : xferSeq c rs x need = (putByteSeq c x ++ lines) ++ pulse c .e c.tEn need :=
    (List.append_assoc _ _ _).symm
  have hacts : (putByteSeq c x ++ lines).map (·.action) =
      byteActions c x ++ (latchActions c ++ lines.map (·.action)) := rfl
  have hdev : devAfter p sr q (byteActions c x ++ (latchActions c ++ lines.map (·.action))) =
      ({ p with ser := x.getLsbD 0, rs := rs, rw := false }, Stages.ofByte x, Stages.ofByte x) := by
    rw [devAfter_byte c x p sr q hsrclk, devAfter_latch c _ _ _ (by exact hrclk)]
    rfl
  rw [hlist, safeSeq_calm rfl he, hacts, hdev]
  exact safeSeq_pulse_e c c.tEn need (by simp [quiet, hsrclk, hrclk, he]) _ (by simp)

/-- A named command is safe (42_lcd_commands.md R140). -/
theorem safeFromQuiet_cmdSeq (c : Config) (x : Byte) (t : Nat) : SafeFromQuiet (cmdSeq c x t) :=
  (safeFromQuiet_xferSeq c false x t).append (safeFromQuiet_hold t)

/-- A character write is safe (41_lcd_transfer.md R124). -/
theorem safeFromQuiet_charSeq (c : Config) (x : Byte) : SafeFromQuiet (charSeq c x) :=
  (safeFromQuiet_xferSeq c true x c.tChar).append (safeFromQuiet_hold c.tChar)

/-- The character writes of a text are safe (43_lcd_text.md R171). -/
theorem safeFromQuiet_strSeq (c : Config) (t : Text) : SafeFromQuiet (strSeq c t) :=
  safeFromQuiet_flatMap t (safeFromQuiet_charSeq c)

/-- The wake-up list is safe (70_reset_and_hazards.md R231). -/
theorem safeFromQuiet_wakeSeq (c : Config) : SafeFromQuiet (wakeSeq c) := by
  have hpor : SafeFromQuiet (if c.tPor > 0 then [hold c.tPor] else []) := by
    split
    · exact safeFromQuiet_hold c.tPor
    · exact safeFromQuiet_nil
  have hcmd := safeFromQuiet_cmdSeq c 0x30
  exact hpor.append (((hcmd c.tW1).append (hcmd c.tW1)).append (hcmd c.tW3))

/-- Every list a request loads is safe. -/
theorem exec_request_safe {i : Instr} {r : Request} (h : encode i = .req r) (s : State) :
    ∃ items, exec i s = accept items s ∧ SafeFromQuiet items := by
  have hcmd := safeFromQuiet_cmdSeq s.config
  have hstr := safeFromQuiet_strSeq s.config
  cases i with
  | shiftbit b => exact ⟨_, rfl, safeFromQuiet_bitSeq s.config b⟩
  | shiftbyte x => exact ⟨_, rfl, safeFromQuiet_byteSeq s.config x⟩
  | latch => exact ⟨_, rfl, safeFromQuiet_latchSeq s.config⟩
  | putbit b => exact ⟨_, rfl, (safeFromQuiet_bitSeq s.config b).append (safeFromQuiet_latchSeq s.config)⟩
  | putbyte x => exact ⟨_, rfl, safeFromQuiet_putByteSeq s.config x⟩
  | command x => exact ⟨_, rfl, safeFromQuiet_xferSeq s.config false x _⟩
  | writechar x => exact ⟨_, rfl, safeFromQuiet_charSeq s.config x⟩
  | defaultsetup => exact ⟨_, rfl, ((hcmd _ _).append (hcmd _ _)).append (hcmd _ _)⟩
  | writestr t => exact ⟨_, rfl, hstr t⟩
  | writemsg t1 t2 => exact ⟨_, rfl, ((hstr t1).append (hcmd _ _)).append (hstr t2)⟩
  | clear | home | funcset | dispset | entryset | setddram | setcgram | setcursor => exact ⟨_, rfl, hcmd _ _⟩
  | lcdClear | lcdHome | lcdEntryModeSet | lcdDisplaySet | lcdFunctionSet | lcdCgramAddressSet | lcdDdramAddressSet |
      lcdData => cases h

/-- In READY acceptance tells the lists apart. -/
theorem accept_injective {l l' : List SeqItem} {s : State} (hp : s.phase = .ready)
    (h : accept l s = accept l' s) : l = l' := by
  rw [accept_ready l hp, accept_ready l' hp] at h
  injection h with h
  injection h

/-! ### A run -/

/-- Lines low before the wake-up list are safe: the start of every run, a reset's among them (70_reset_and_hazards.md R230,
R231). -/
theorem safeLines_of_wake {s : State} (hp : s.phase = .wake) (hpins : s.pins = Pins.low)
    (hq : s.seq = wakeSeq s.config) : SafeLines s := by
  have hne : wakeSeq s.config ≠ [] := by simp [wakeSeq, cmdSeq]
  refine ⟨by simp [hp, hq, hne], ?_⟩
  rw [hq, hpins]
  exact safeFromQuiet_wakeSeq s.config _ _ _ rfl

/-- READY follows the last action, and until then what is left is safe. -/
theorem safeLines_of_retire {s t : State} (hp : s.phase ≠ .ready)
    (hphase : t.phase = if t.seq.isEmpty then .ready else s.phase) (hsafe : safeSeq t.pins t.sr t.q t.seq = true) :
    SafeLines t := by
  refine ⟨?_, hsafe⟩
  rw [hphase, ← List.isEmpty_iff]
  split <;> simp [*]

/-- Every step keeps the lines safe (70_reset_and_hazards.md R238, R240). -/
theorem step_keeps_safeLines {s t : State} (hs : SafeLines s) (h : step s = .next t) : SafeLines t := by
  obtain ⟨hidle, hsafe⟩ := hs
  obtain ⟨time, -, hp, rfl⟩ | ⟨-, -, -, rfl⟩ | ⟨-, -, d, rest, -, rfl⟩ | ⟨-, hp, r, rest, i, items, -, hi, hx, rfl⟩ |
    ⟨-, hp, hq, -⟩ | ⟨-, hp, d, need, rest, hq, rfl⟩ | ⟨-, hp, p, v, need, rest, hq, -, -, rfl⟩ |
    ⟨-, hp, need, rest, x, hq, -, -, rfl⟩ := step_next_cases h
  · exact safeLines_of_wake rfl rfl rfl
  · exact ⟨hidle, hsafe⟩
  · exact ⟨hidle, hsafe⟩
  · obtain ⟨items', hx', hitems⟩ := exec_request_safe (encode_of_decodeReq hi) { s with host := rest }
    obtain rfl := accept_injective (by exact hp) (hx.symm.trans hx')
    have hquiet : quiet s.pins = true := by rwa [hidle.mp hp] at hsafe
    refine ⟨?_, hitems _ _ _ hquiet⟩
    cases items <;> simp
  · exact absurd (hidle.mpr hq) hp
  all_goals
    rw [hq] at hsafe
    refine safeLines_of_retire hp rfl ?_
  · simpa [hq, safeSeq] using hsafe
  · rw [safeSeq, Bool.and_eq_true] at hsafe
    obtain ⟨-, hrest⟩ := hsafe
    simpa [hq] using hrest
  · rw [safeSeq, Bool.and_eq_true] at hsafe
    obtain ⟨-, hrest⟩ := hsafe
    simpa [hq, srAfter, qAfter] using hrest

/-- The lines are safe at the start of every run. -/
theorem safeLines_launch (c : Config) (host : List HostAction) (resets : List Nat) :
    SafeLines (State.launch c host resets) := safeLines_of_wake rfl rfl rfl

/-! ### No run samples an unknown bit (60_exceptions.md R206) -/

/-- While the lines are safe, E never falls with an unknown bit on the bus. -/
theorem step_samples_known {s : State} (hs : SafeLines s) (time index : Nat) (q : Stages) (t : State) :
    step s ≠ .fault (.unknownBusValue time index q t) := by
  intro h
  obtain ⟨-, hsafe⟩ := hs
  obtain ⟨-, ⟨_, _, _, _, -, -, hf⟩ | ⟨need, rest, hq, he, hx, -⟩⟩ := step_fault_cases h
  · cases hf
  · rw [hq] at hsafe
    simp [safeSeq, Pins.falls, Pins.get, he, hx] at hsafe

/-- Stages that hold no byte have an unknown bit. -/
theorem byte?_eq_none {t : Stages} (h : ∀ x, t ≠ Stages.ofByte x) : t.byte? = none :=
  Option.eq_none_iff_forall_ne_some.mpr fun x hx => h x (ofByte_of_byte? hx)

/-- Settles O44: the fall of E is a sample of an unknown bit; and the lines are safe all through a run. -/
theorem unknownBusValueIsNeverReached : Obligations.UnknownBusValueIsNeverReached := by
  refine ⟨fun s need rest hp hd hl he hq hx => ⟨s.fallE need, ?_, rfl, rfl⟩, fun c host resets n time index q t h => ?_⟩
  · rw [step_running hp hd hl hq, perform_fall_eq_sample need he, sample_unknown need (byte?_eq_none hx)]
  · obtain ⟨u, hu, hstep⟩ := run_fault (fun _ _ => step_keeps_safeLines) n (safeLines_launch c host resets) h
    exact step_samples_known hu time index q t hstep

end Sys2Proof.Proofs
end

section
/-! SUPPORT. Proofs of the statements about reset and the wake-up (70_reset_and_hazards.md R230 to R235): a reset is a new
run in READY and a refusal elsewhere; the wake-up list is a wait and three named commands, each from the quiet and settled
lines the one before leaves. -/

namespace Sys2Proof.Proofs

open Sys2Proof.Machine Sys2Proof.Laws Sys2Proof.Safety

/-! ### A reset (R234, R235) -/

/-- Settles O49: the reset is due, so READY is observed and starts the new run. -/
theorem resetInReadyStartsANewRun : Obligations.ResetInReadyStartsANewRun := by
  intro s time later hp hr hle
  have hdue : resetDue s = some time := resetDue_reached hr hle
  refine ⟨observation_ready_reset hp hdue, ?_⟩
  rw [step_ready_reset hp hdue]
  simp [restart, hr, Pins.low]

/-- Outside READY a reset that falls inside the wait about to run is due already (log entry 4). -/
theorem resetDue_inside_wait {s : State} {time d need : Nat} {later : List Nat} {rest : List SeqItem}
    (hp : s.phase ≠ .ready) (hr : s.resets = time :: later) (hq : s.seq = ⟨.wait d, need⟩ :: rest)
    (hlt : time < s.now + d) : resetDue s = some time := by
  simp [resetDue, hr, hp, headWait, hq, hlt]

/-- Outside READY, past the launch check, a reset that is due is refused (R235; 60_exceptions.md R201). -/
theorem step_running_reset {s : State} {time : Nat} (hp : s.phase ≠ .ready) (hl : launchViolation s = none)
    (hd : resetDue s = some time) : step s = .refused (.resetDuringOperation time) := by
  simp only [step, hl, hd, takeReset, if_neg hp]

/-- Settles O50: either way the reset is due, and it is refused outside READY. -/
theorem resetDuringOperationRefused : Obligations.ResetDuringOperationRefused := by
  rintro s time later hp hl hr (hle | ⟨d, need, rest, hq, hlt⟩)
  · exact step_running_reset hp hl (resetDue_reached hr hle)
  · exact step_running_reset hp hl (resetDue_inside_wait hp hr hq hlt)

/-! ### A named command inside a running sequence -/

/-- What a named command leaves in a running sequence with `rest` still to perform (42_lcd_commands.md R140). -/
def afterCommandWith (s : State) (x : Byte) (t : Nat) (rest : List SeqItem) : State :=
  { afterCommand s x t with seq := rest, phase := if rest.isEmpty then .ready else s.phase }

/-- A command leaves the sequencer going while something is left. -/
theorem going_afterCommandWith {s : State} (h : Going s) {rest : List SeqItem} (hrest : rest ≠ []) (x : Byte)
    (t : Nat) : Going (afterCommandWith s x t rest) := by
  have hphase : (afterCommandWith s x t rest).phase = s.phase := if_neg (by simpa using hrest)
  exact ⟨h.resets, fun hp => h.running (hphase.symm.trans hp), fun hw => h.launched (hphase.symm.trans hw)⟩

/-- A command's own wait covers its settle tag. -/
theorem transferSettled_afterCommandWith (s : State) (x : Byte) (t : Nat) (rest : List SeqItem) :
    TransferSettled (afterCommandWith s x t rest) :=
  transferSettled_afterTransfer s false x (waits := [t]) (Nat.le_refl t)

/-- A named command inside a running sequence: 30 `Set`s and 31 `Wait`s, from quiet and settled lines (R140). -/
theorem run_namedCommand {s : State} (h : Going s) {x : Byte} {t : Nat} {rest : List SeqItem}
    (hq : s.seq = cmdSeq s.config x t ++ rest) (hquiet : quiet s.pins = true) (hsettled : TransferSettled s) :
    run 61 s = .next (afterCommandWith s x t rest) := by
  let m : State := { afterTransfer s false x t [] with seq := hold t :: rest }
  have hxfer : run 60 s = .next m := run_xfer h (by simpa [cmdSeq] using hq) hquiet hsettled
  have hgoing : Going m := ⟨h.resets, h.running, h.launched⟩
  rw [show 61 = 60 + 1 from rfl, run_add 1 hxfer, run_one hgoing rfl rfl]
  simp [m, pastActs, past, devAfter, duration, hold, afterCommandWith, afterCommand, afterTransfer]

/-- Three named commands, one after the other, to the end of the sequence. -/
theorem run_three_namedCommands {s : State} (h : Going s) {x : Byte} {t1 t2 t3 : Nat}
    (hq : s.seq = cmdSeq s.config x t1 ++ (cmdSeq s.config x t2 ++ cmdSeq s.config x t3))
    (hquiet : quiet s.pins = true) (hsettled : TransferSettled s) :
    run 183 s = .next (afterCommandWith (afterCommandWith (afterCommandWith s x t1
      (cmdSeq s.config x t2 ++ cmdSeq s.config x t3)) x t2 (cmdSeq s.config x t3)) x t3 []) := by
  have hgoing1 := going_afterCommandWith h (rest := cmdSeq s.config x t2 ++ cmdSeq s.config x t3) (by simp [cmdSeq]) x t1
  have hgoing2 := going_afterCommandWith hgoing1 (rest := cmdSeq s.config x t3) (by simp [cmdSeq]) x t2
  rw [show 183 = 61 + (61 + 61) from rfl, run_add _ (run_namedCommand h hq hquiet hsettled),
    run_add _ (run_namedCommand hgoing1 rfl rfl (transferSettled_afterCommandWith s x t1 _))]
  exact run_namedCommand hgoing2 (List.append_nil _).symm rfl (transferSettled_afterCommandWith _ x t2 _)

/-! ### The wake-up (R231, R232) -/

/-- The actions of the wait before the first wake-up byte: none where `T_POR` is 0 (R231). -/
def porActions (c : Config) : List Action := if c.tPor > 0 then [.wait c.tPor] else []

/-- The wait before the first wake-up byte, performed or left out (R231). -/
theorem run_por {s : State} (h : Going s) {rest : List SeqItem} (hrest : rest ≠ [])
    (hq : s.seq = (if s.config.tPor > 0 then [hold s.config.tPor] else []) ++ rest) :
    run (porActions s.config).length s =
      .next { s with seq := rest, now := s.now + s.config.tPor, trace := s.trace ++ porActions s.config } := by
  by_cases hpor : s.config.tPor > 0
  · rw [if_pos hpor] at hq
    rw [porActions, if_pos hpor, List.length_singleton, run_one h hq rfl]
    simp [pastActs, past, devAfter, duration, hold, hrest]
  · rw [if_neg hpor, List.nil_append] at hq
    rw [porActions, if_neg hpor, show s.config.tPor = 0 by omega]
    simp [run, ← hq]

/-- The state the wake-up ends in, from the lines low at the start of a run (R231, R232). -/
def afterWake (s : State) : State :=
  { s with
    pins := Pins.low
    phase := .ready
    seq := []
    sr := Stages.ofByte 0x30
    q := Stages.ofByte 0x30
    busLog := s.busLog ++ [(false, 0x30), (false, 0x30), (false, 0x30)]
    lastXfer := some (s.config.tPor + 3 * transferTime s.config + 2 * s.config.tW1 - s.config.tS, s.config.tW3)
    now := s.config.tPor + 3 * transferTime s.config + 2 * s.config.tW1 + s.config.tW3
    trace := porActions s.config ++
      transferActions s.config false 0x30 ++ [.wait s.config.tW1] ++
      transferActions s.config false 0x30 ++ [.wait s.config.tW1] ++
      transferActions s.config false 0x30 ++ [.wait s.config.tW3] }

/-- With no reset scheduled the wake-up list of a start of a run is performed to its end (R231). -/
theorem run_wakeSeq {s : State} (h : Going s) (hpins : s.pins = Pins.low) (hq : s.seq = wakeSeq s.config)
    (hlast : s.lastXfer = none) (hnow : s.now = 0) (htrace : s.trace = []) :
    run s.seq.length s = .next (afterWake s) := by
  let cmds := cmdSeq s.config 0x30 s.config.tW1 ++
    (cmdSeq s.config 0x30 s.config.tW1 ++ cmdSeq s.config 0x30 s.config.tW3)
  have hlist : s.seq = (if s.config.tPor > 0 then [hold s.config.tPor] else []) ++ cmds := by
    rw [hq, wakeSeq, List.append_assoc]
  have hlength : s.seq.length = (porActions s.config).length + 183 := by
    rw [hlist, List.length_append, porActions]
    split <;> rfl
  let m : State := { s with
    seq := cmds, now := s.now + s.config.tPor, trace := s.trace ++ porActions s.config }
  have hgoing : Going m := ⟨h.resets, h.running, h.launched⟩
  have hquiet : quiet m.pins = true := by simp [m, hpins, quiet, Pins.low]
  have hsettled : TransferSettled m := by simp [m, TransferSettled, hlast, settledAt]
  rw [hlength, run_add 183 (run_por h (by simp [cmds, cmdSeq]) hlist),
    run_three_namedCommands (s := m) hgoing rfl hquiet hsettled]
  simp [m, afterWake, afterCommandWith, afterCommand, afterTransfer, hnow, htrace, Pins.low, transferTime]
  omega

/-- Settles O47: the wake-up list runs to its end, and a reset after that end changes nothing before it. -/
theorem wakeUpRunsToReady : Obligations.WakeUpRunsToReady := by
  intro s hvalid hpins hp hq hlast hnow htrace hr
  have hgoing : Going (withResets s []) :=
    ⟨rfl, by simp [withResets, hp], fun _ => (configViolation_eq_none_iff s.config).mpr hvalid⟩
  have hrun := run_wakeSeq hgoing hpins hq hlast hnow htrace
  refine ⟨_, run_laterReset s.seq.length hrun hr, rfl, rfl, rfl, rfl, rfl, rfl, rfl, rfl, ?_, rfl, rfl, rfl⟩
  simp only [withResets, afterWake]
  congr 2
  omega

/-- Settles O48: the wake-up of the default configuration, whose times add up to these. -/
theorem postWakeState : Obligations.PostWakeState := by
  obtain ⟨u, hrun, hp, -, hpins, hsr, hq, hlog, hnow, -, hlast, -, hconfig, -⟩ :=
    wakeUpRunsToReady State.reset (by unfold ConfigValid; decide) rfl rfl rfl rfl rfl rfl (fun r hr => nomatch hr)
  have hend : u.now = 20340000 := hnow
  exact ⟨u, hrun, hp, hpins, hsr, hq, hlog, by rw [hlast, hend, hconfig]; rfl, hend⟩

end Sys2Proof.Proofs
end

section
/-! SUPPORT. Proofs of the statements about safe lines (70_reset_and_hazards.md R238, R240), each read off the invariant
that every run starts with and every step keeps. -/

namespace Sys2Proof.Proofs

open Sys2Proof.Machine Sys2Proof.Laws Sys2Proof.Safety

/-- Settles O52, by the invariant's step lemma. -/
theorem stepKeepsLinesSafe : Obligations.StepKeepsLinesSafe := fun _ _ => step_keeps_safeLines

/-- Settles O53: the reset state is a launch, of the default configuration. -/
theorem launchIsLinesSafe : Obligations.LaunchIsLinesSafe := ⟨safeLines_launch Config.default [] [], safeLines_launch⟩

/-- In READY nothing is left to perform, so safe lines are quiet (R238). -/
theorem quiet_of_safeLines_ready {s : State} (hs : SafeLines s) (hp : s.phase = .ready) : quiet s.pins = true := by
  obtain ⟨hidle, hsafe⟩ := hs
  rwa [hidle.mp hp] at hsafe

/-- Settles O54: the lines are safe all through a run. -/
theorem readyLinesAreQuiet : Obligations.ReadyLinesAreQuiet := by
  intro c host resets n t h hp
  have hs : SafeLines t := run_invariant stepKeepsLinesSafe n (safeLines_launch c host resets) h
  exact (quiet_iff t.pins).mp (quiet_of_safeLines_ready hs hp)

/-- While E is high all a step can do is wait, or lower E (R240). -/
theorem step_enabled_cases {s t : State} (hs : SafeLines s) (he : s.pins.e = true) (h : step s = .next t) :
    (∃ d, t = performWait d s) ∨ (∃ need x, t = busWrite s.pins.rs x (s.fallE need)) := by
  have hrunning : s.phase ≠ .ready := by
    intro hp
    obtain ⟨-, -, hlow, -⟩ := (quiet_iff s.pins).mp (quiet_of_safeLines_ready hs hp)
    rw [he] at hlow
    cases hlow
  obtain ⟨hidle, hsafe⟩ := hs
  obtain ⟨time, -, hp, -⟩ | ⟨-, hp, -⟩ | ⟨-, hp, -⟩ | ⟨-, hp, -⟩ | ⟨-, -, hq, -⟩ | ⟨-, -, d, need, rest, -, rfl⟩ |
    ⟨-, -, p, v, need, rest, hq, hf, -, -⟩ | ⟨-, -, need, rest, x, -, -, -, rfl⟩ := step_next_cases h
  · exact absurd hp hrunning
  · exact absurd hp hrunning
  · exact absurd hp hrunning
  · exact absurd hp hrunning
  · exact absurd (hidle.mpr hq) hrunning
  · exact .inl ⟨d, rfl⟩
  · rw [hq, safeSeq] at hsafe
    simp only [Bool.and_eq_true] at hsafe
    obtain ⟨⟨⟨-, honlyE⟩, -⟩, -⟩ := hsafe
    obtain ⟨rfl, rfl⟩ : p = .e ∧ v = false := by simpa [he] using honlyE
    exact absurd ⟨rfl, by simp [Pins.falls, Pins.get, he]⟩ hf
  · exact .inr ⟨need, x, rfl⟩

/-- Settles O55: a wait touches no line, and a fall of E touches only E and enters the trace as such. -/
theorem nothingMovesWhileEnabled : Obligations.NothingMovesWhileEnabled := by
  intro s t hs he h
  obtain ⟨d, rfl⟩ | ⟨need, x, rfl⟩ := step_enabled_cases hs he h
  · exact ⟨rfl, rfl, rfl, rfl, rfl, rfl, rfl, fun p v htrace => by simp at htrace⟩
  · refine ⟨rfl, rfl, rfl, rfl, rfl, rfl, rfl, fun p v htrace => ?_⟩
    obtain ⟨hp, -⟩ : .e = p ∧ false = v := by simpa using htrace
    exact hp.symm

end Sys2Proof.Proofs
end

section
/-! SUPPORT. The settle obligation in every run of named operations (70_reset_and_hazards.md R237): every action list but a
raw COMMAND's keeps it from any settled time and is settled at its end, so every step keeps it but the acceptance of a raw
COMMAND; hence a host program without one never faults. -/

namespace Sys2Proof.Proofs

open Sys2Proof.Machine Sys2Proof.Laws Sys2Proof.Safety

/-! ### Lists that keep the settle obligation -/

/-- The list keeps the settle obligation from any settled time, whatever the lines, and is settled at its end. -/
def TimedFromSettled (items : List SeqItem) : Prop :=
  ∀ (time : Nat) (last : Option (Nat × Nat)) (p : Pins), settledAt time last = true → timedSeq time last p items = true

/-- What is settled stays so as time passes. -/
theorem settledAt_later {time : Nat} {last : Option (Nat × Nat)} (d : Nat) (h : settledAt time last = true) :
    settledAt (time + d) last = true := by
  cases last with
  | none => rfl
  | some xfer =>
    simp only [settledAt, decide_eq_true_eq] at h ⊢
    omega

theorem timedFromSettled_nil : TimedFromSettled [] := fun _ _ _ h => h

/-- A list that keeps the obligation ends settled, so one that keeps it from a settled time may follow. -/
theorem timedSeq_append {time : Nat} {last : Option (Nat × Nat)} {p : Pins} {l l' : List SeqItem}
    (hl : timedSeq time last p l = true) (hl' : TimedFromSettled l') : timedSeq time last p (l ++ l') = true := by
  induction l generalizing time last p with
  | nil => exact hl' time last p hl
  | cons it l ih =>
    obtain ⟨a, need⟩ := it
    cases a with
    | wait d => exact ih hl
    | set pin v =>
      simp only [timedSeq, List.cons_append, Bool.and_eq_true] at hl ⊢
      obtain ⟨hhead, hrest⟩ := hl
      exact ⟨hhead, ih hrest⟩

theorem TimedFromSettled.append {l l' : List SeqItem} (hl : TimedFromSettled l) (hl' : TimedFromSettled l') :
    TimedFromSettled (l ++ l') := fun time last p h => timedSeq_append (hl time last p h) hl'

/-- A list that drives no E starts no transfer, and lets time pass. -/
theorem timedFromSettled_noE {items : List SeqItem} (he : (items.all fun it => notE it.action) = true) :
    TimedFromSettled items := by
  induction items with
  | nil => exact timedFromSettled_nil
  | cons it items ih =>
    intro time last p h
    obtain ⟨a, need⟩ := it
    rw [List.all_cons, Bool.and_eq_true] at he
    obtain ⟨ha, he⟩ := he
    cases a with
    | wait d => exact ih he _ _ _ (settledAt_later d h)
    | set l v =>
      have hl : l ≠ .e := by simpa [notE] using ha
      simpa [timedSeq, hl] using ih he time last (p.drive l v) h

/-- An enable pulse and the wait its tag asks for keep the obligation (R237). -/
theorem timedFromSettled_pulse_hold (c : Config) {need t : Nat} (hneed : need ≤ t) :
    TimedFromSettled (pulse c .e c.tEn need ++ [hold t]) := by
  intro time last p h
  have hpassed : need ≤ time + c.tEn + c.tS + t - (time + c.tEn) := by omega
  simp only [pulse, drivePin, hold, List.cons_append, List.nil_append, timedSeq, h]
  exact decide_eq_true hpassed

/-- A transfer and the wait its tag asks for keep the obligation (41_lcd_transfer.md R120, R121). -/
theorem timedFromSettled_xfer_hold (c : Config) (rs : Bool) (x : Byte) {need t : Nat} (hneed : need ≤ t) :
    TimedFromSettled (xferSeq c rs x need ++ [hold t]) := by
  have hhead : TimedFromSettled
      (putByteSeq c x ++ [drivePin .rs rs, hold c.tS, drivePin .rw false, hold c.tS]) := timedFromSettled_noE rfl
  simpa [xferSeq] using hhead.append (timedFromSettled_pulse_hold c hneed)

/-- A named command keeps the obligation (42_lcd_commands.md R140). -/
theorem timedFromSettled_cmdSeq (c : Config) (x : Byte) (t : Nat) : TimedFromSettled (cmdSeq c x t) :=
  timedFromSettled_xfer_hold c false x le_rfl

/-- The character writes of a text keep the obligation (41_lcd_transfer.md R124; 43_lcd_text.md R171). -/
theorem timedFromSettled_strSeq (c : Config) (t : Text) : TimedFromSettled (strSeq c t) := by
  induction t with
  | nil => exact timedFromSettled_nil
  | cons x t ih => exact (timedFromSettled_xfer_hold c true x le_rfl).append ih

/-- The wake-up list keeps the obligation (R231). -/
theorem timedFromSettled_wakeSeq (c : Config) : TimedFromSettled (wakeSeq c) := by
  have hpor : TimedFromSettled (if c.tPor > 0 then [hold c.tPor] else []) := by
    split <;> exact timedFromSettled_noE rfl
  have hcmd := timedFromSettled_cmdSeq c 0x30
  exact hpor.append (((hcmd c.tW1).append (hcmd c.tW1)).append (hcmd c.tW3))

/-- Every list a request loads keeps the obligation, but a raw COMMAND's. -/
theorem exec_request_timed {i : Instr} {r : Request} (h : encode i = .req r) (hi : ∀ x, i ≠ .command x) (s : State) :
    ∃ items, exec i s = accept items s ∧ TimedFromSettled items := by
  have hcmd := timedFromSettled_cmdSeq s.config
  have hstr := timedFromSettled_strSeq s.config
  cases i with
  | shiftbit | shiftbyte | latch | putbit | putbyte => exact ⟨_, rfl, timedFromSettled_noE rfl⟩
  | command x => exact absurd rfl (hi x)
  | writechar x => exact ⟨_, rfl, timedFromSettled_xfer_hold s.config true x le_rfl⟩
  | defaultsetup => exact ⟨_, rfl, ((hcmd _ _).append (hcmd _ _)).append (hcmd _ _)⟩
  | writestr t => exact ⟨_, rfl, hstr t⟩
  | writemsg t1 t2 => exact ⟨_, rfl, ((hstr t1).append (hcmd _ _)).append (hstr t2)⟩
  | clear | home | funcset | dispset | entryset | setddram | setcgram | setcursor => exact ⟨_, rfl, hcmd _ _⟩
  | lcdClear | lcdHome | lcdEntryModeSet | lcdDisplaySet | lcdFunctionSet | lcdCgramAddressSet | lcdDdramAddressSet |
      lcdData => cases h

/-- A request that is no raw COMMAND decodes to none. -/
theorem ne_command_of_notCommand {r : Request} {i : Instr} (hi : decodeReq r = .ok i)
    (hr : notCommand (.req r) = true) (x : Byte) : i ≠ .command x := by
  rintro rfl
  simp [notCommand, hi] at hr

/-! ### A step -/

/-- The wake-up list with no transfer behind it keeps the obligation: the start of every run, a reset's among them (R230,
R231). -/
theorem safeTiming_of_wake {s : State} (hp : s.phase = .wake) (hpins : s.pins = Pins.low) (hlast : s.lastXfer = none)
    (hq : s.seq = wakeSeq s.config) : SafeTiming s := by
  obtain ⟨hidle, -⟩ := safeLines_of_wake hp hpins hq
  refine ⟨hidle, ?_⟩
  rw [hq, hlast]
  exact timedFromSettled_wakeSeq s.config _ _ _ rfl

/-- READY follows the last action of a running sequence (10_state.md R26, R27). -/
theorem ready_iff_seq_nil_of_retire {s t : State} (hp : s.phase ≠ .ready)
    (hphase : t.phase = if t.seq.isEmpty then .ready else s.phase) : t.phase = .ready ↔ t.seq = [] := by
  rw [hphase, ← List.isEmpty_iff]
  split <;> simp [*]

/-- Every step keeps the settle obligation, but the acceptance of a raw COMMAND (R237). -/
theorem step_keeps_safeTiming {s t : State} (hs : SafeTiming s)
    (hhost : s.phase = .ready → resetDue s = none → ∀ a, s.host.head? = some a → notCommand a = true)
    (h : step s = .next t) : SafeTiming t := by
  obtain ⟨hidle, htimed⟩ := hs
  have hsettled : s.phase = .ready → settledAt s.now s.lastXfer = true := fun hp => by
    rwa [hidle.mp hp] at htimed
  obtain ⟨time, -, hp, rfl⟩ | ⟨-, -, -, rfl⟩ | ⟨-, hp, d, rest, -, rfl⟩ |
    ⟨hd, hp, r, rest, i, items, hh, hi, hx, rfl⟩ | ⟨-, hp, hq, -⟩ | ⟨-, hp, d, need, rest, hq, rfl⟩ |
    ⟨-, hp, p, v, need, rest, hq, hf, -, rfl⟩ | ⟨-, hp, need, rest, x, hq, he, -, rfl⟩ := step_next_cases h
  · exact safeTiming_of_wake rfl rfl rfl rfl
  · exact ⟨hidle, htimed⟩
  · refine ⟨hidle, ?_⟩
    simpa [hidle.mp hp, timedSeq] using settledAt_later _ (hsettled hp)
  · have hnot : notCommand (.req r) = true := hhost hp hd _ (by rw [hh]; rfl)
    obtain ⟨items', hx', hitems⟩ := exec_request_timed (encode_of_decodeReq hi) (ne_command_of_notCommand hi hnot)
      { s with host := rest }
    obtain rfl := accept_injective (by exact hp) (hx.symm.trans hx')
    refine ⟨?_, hitems _ _ _ (hsettled hp)⟩
    cases items <;> simp
  · exact absurd (hidle.mpr hq) hp
  all_goals
    rw [hq] at htimed
    refine ⟨ready_iff_seq_nil_of_retire hp rfl, ?_⟩
  · simpa [hq, timedSeq] using htimed
  · rw [timedSeq, if_neg hf, Bool.and_eq_true] at htimed
    obtain ⟨-, hrest⟩ := htimed
    simpa [hq] using hrest
  · rw [timedSeq, if_pos ⟨rfl, by simp [Pins.falls, Pins.get, he]⟩, Bool.and_eq_true] at htimed
    obtain ⟨-, hrest⟩ := htimed
    simpa [hq] using hrest

/-- The settle obligation is kept at the start of every run. -/
theorem safeTiming_launch (c : Config) (host : List HostAction) (resets : List Nat) :
    SafeTiming (State.launch c host resets) := safeTiming_of_wake rfl rfl rfl rfl

/-- A breach of the settle time is the time being unsettled (60_exceptions.md R205). -/
theorem not_settledAt_of_timingBreach {s : State} {tFall required : Nat}
    (hb : timingBreach s = some (tFall, required)) : settledAt s.now s.lastXfer = false := by
  obtain ⟨hx, hlt⟩ := timingBreach_eq_some_iff.mp hb
  simpa [hx, settledAt] using hlt

/-- While the settle obligation is kept, E never rises too early (R205). -/
theorem step_rises_settled {s : State} (hs : SafeTiming s) (time index tFall need : Nat) (t : State) :
    step s ≠ .fault (.lcdTimingViolation time index tFall need t) := by
  intro h
  obtain ⟨-, htimed⟩ := hs
  obtain ⟨-, ⟨n, rest, tFall', required, hq, hb, -⟩ | ⟨_, _, -, -, -, hf⟩⟩ := step_fault_cases h
  · rw [hq] at htimed
    simp [timedSeq, not_settledAt_of_timingBreach hb] at htimed
  · cases hf

/-- Settles O56: the step lemma, the start of a run, and the settled rise of E. -/
theorem namedOperationsKeepTheSettle : Obligations.NamedOperationsKeepTheSettle :=
  ⟨fun _ _ => step_keeps_safeTiming, safeTiming_launch, fun _ time index tFall need t hs =>
    step_rises_settled hs time index tFall need t⟩

/-! ### A run of named operations -/

/-- A step takes at most the first action from the host program (10_state.md R21). -/
theorem step_host_suffix {s t : State} (h : step s = .next t) : t.host <:+ s.host := by
  obtain ⟨time, -, -, rfl⟩ | ⟨-, -, -, rfl⟩ | ⟨-, -, d, rest, hh, rfl⟩ | ⟨-, -, r, rest, i, items, hh, -, -, rfl⟩ |
    ⟨-, -, -, rfl⟩ | ⟨-, -, d, need, rest, -, rfl⟩ | ⟨-, -, p, v, need, rest, -, -, -, rfl⟩ |
    ⟨-, -, need, rest, x, -, -, -, rfl⟩ := step_next_cases h
  case inr.inr.inl | inr.inr.inr.inl => rw [hh]; exact List.suffix_cons ..
  all_goals exact List.suffix_rfl

/-- What a run with no raw COMMAND left in its host program keeps: safe lines and the settle obligation. -/
structure SafeRun (s : State) : Prop where
  lines : SafeLines s
  timing : SafeTiming s
  host : ∀ a ∈ s.host, notCommand a = true

/-- Every step keeps a safe run. -/
theorem step_keeps_safeRun {s t : State} (hs : SafeRun s) (h : step s = .next t) : SafeRun t where
  lines := step_keeps_safeLines hs.lines h
  timing := step_keeps_safeTiming hs.timing (fun _ _ a ha => hs.host a (List.mem_of_head? ha)) h
  host a ha := hs.host a ((step_host_suffix h).subset ha)

/-- Settles O57: a run that faulted would reach a state of a safe run whose step is one of the two faults. -/
theorem namedOperationsNeverFault : Obligations.NamedOperationsNeverFault := by
  intro c host resets n f hhost h
  have hlaunch : SafeRun (State.launch c host resets) :=
    ⟨safeLines_launch c host resets, safeTiming_launch c host resets, List.all_eq_true.mp hhost⟩
  obtain ⟨u, hu, hstep⟩ := run_fault (fun _ _ => step_keeps_safeRun) n hlaunch h
  cases f with
  | lcdTimingViolation time index tFall need t => exact step_rises_settled hu.timing time index tFall need t hstep
  | unknownBusValue time index q t => exact step_samples_known hu.lines time index q t hstep

end Sys2Proof.Proofs
end
